-- ==== Sys2Proof/Word.lean ====
section
/-!
DEFINITION. The engine's data types below the instruction level: the byte (R7, R9) and the three parser
modes (R24).
-/

namespace Sys2Proof

/-- A byte: an unsigned integer 0 to 255, bit 7 the most significant (R9). Received bytes, the registers `len`
and `cnt` (R21, R22), the codec register `crc` (R23) and the reply bytes are all of this width. -/
abbrev Byte := BitVec 8

/-- The parser mode. Exactly three constructors (R24): the source's "(implicit) Complete" is not a mode (R118)
and the encoding 3 is unrepresentable (R72, U4). -/
inductive Mode where
  /-- SeekingHeader, the "initial/resync state". -/
  | seek
  /-- ReadingLength. -/
  | rlen
  /-- AccumulatingPayloadAndTrailer. -/
  | accum
deriving DecidableEq, Repr

end Sys2Proof
end

