-- ==== Sys2Proof/Config.lean ====
section
/-!
DEFINITION. What is fixed while the engine runs: the one implementation parameter MAX_LEN (R6) and the byte
constants of the protocol (R62).
-/

namespace Sys2Proof

/-- The engine's configuration: one parameter, constant for the life of an engine (R6, R26). -/
structure Config where
  /-- MAX_LEN: the largest declared frame length admitted and the capacity of the buffer in bytes. -/
  maxLen : Byte
deriving DecidableEq, Repr

/-- The parameter's range, 4 ≤ MAX_LEN ≤ 255 (R6). No engine is defined outside it (D1, U1). -/
abbrev Config.Valid (c : Config) : Prop := 4 ≤ c.maxLen.toNat ∧ c.maxLen.toNat ≤ 255

/-- The value the spec uses where one is needed, MAX_LEN = 255 (R6, D1). DESIGN CHOICE, log 1. -/
def Config.standard : Config := ⟨255#8⟩

/-- The six byte constants (R62), by the spec's names. -/
def Wire.header : Byte := 0xAA#8
/-- END, the frame end marker (R62). -/
def Wire.endMarker : Byte := 0xBB#8
/-- HANDSHAKE_REQ, sent by the peer (R62, R140). -/
def Wire.handshakeReq : Byte := 0xB1#8
/-- HANDSHAKE_RESP, sent by this engine (R62, R140). -/
def Wire.handshakeResp : Byte := 0x55#8
/-- ACK, frame accepted (R62, R152). -/
def Wire.ack : Byte := 0x06#8
/-- NACK, frame rejected (R62, R152). -/
def Wire.nack : Byte := 0x15#8

end Sys2Proof
end

