-- ==== Sys2Proof/Syntax.lean ====
section
/-!
DEFINITION. The instructions: one constructor per row of spec/opcode_table.json. An operand is a byte (or byte
sequence) the row leaves open; a byte the row fixes is no operand.
-/

namespace Sys2Proof

/-- The 21 rows of the operation table. The first ten are the byte-driven operations of R68, the next five the
codec's internal operations (R91 to R95), the last six the constant byte values of R62 ("constants, not
operations", R68; what they mean as instructions: log 9). -/
inductive Instr where
  /-- SYNC (R112): 0xAA in SEEK. -/
  | sync
  /-- HSK (R141): 0xB1 in SEEK. -/
  | hsk
  /-- SKIP (R111): any other byte in SEEK. -/
  | skip (b : Byte)
  /-- LENBAD (R115), first row: a length below 4. -/
  | lenbad (b : Byte)
  /-- LENBAD.HI (R115), second row of the same operation: a length above MAX_LEN. -/
  | lenbadHi (b : Byte)
  /-- LENOK (R114): a valid length. -/
  | lenok (b : Byte)
  /-- ACC (R116): a byte of the frame before its last one. -/
  | acc (b : Byte)
  /-- FIN.BADEND (R119): a last byte other than END. -/
  | finBadend (b : Byte)
  /-- FIN.BADCRC (R120): the last byte is END, the CRC does not match. -/
  | finBadcrc
  /-- FIN.OK (R121): the last byte is END, the CRC matches. -/
  | finOk
  /-- CRC.INIT (R91). -/
  | crcInit
  /-- CRC.BIT (R92). -/
  | crcBit
  /-- CRC.BYTE (R93) with its input byte. -/
  | crcByte (d : Byte)
  /-- CRC.COMPUTE (R94) with its byte sequence. -/
  | crcCompute (bs : List Byte)
  /-- CRC.CHECK (R95) with the payload and the received CRC byte. -/
  | crcCheck (payload : List Byte) (received : Byte)
  /-- HEADER, 0xAA, peer to engine. -/
  | header
  /-- END, 0xBB, peer to engine. -/
  | endMarker
  /-- HANDSHAKE_REQ, 0xB1, peer to engine. -/
  | handshakeReq
  /-- HANDSHAKE_RESP, 0x55, engine to peer. -/
  | handshakeResp
  /-- ACK, 0x06, engine to peer. -/
  | ack
  /-- NACK, 0x15, engine to peer. -/
  | nack
deriving DecidableEq, Repr

end Sys2Proof
end

