-- ==== Sys2Proof/WellFormed.lean ====
section
/-!
DEFINITION. Well-formed instructions: the operand byte lies in the set its row names (R68, R69, R70, R71). The
bounds of the length rows depend on MAX_LEN, so the check takes the configuration.
-/

namespace Sys2Proof

/-- The length predicate of R113, both bounds inclusive, the byte compared as an unsigned number. -/
abbrev Config.LenValid (c : Config) (b : Byte) : Prop := 4 ≤ b.toNat ∧ b.toNat ≤ c.maxLen.toNat

/-- Is the operand byte one that the instruction's row admits? -/
def Instr.wf (c : Config) : Instr → Bool
  | .skip b => decide (b ≠ Wire.header ∧ b ≠ Wire.handshakeReq)
  | .lenbad b => decide (b.toNat < 4)
  | .lenbadHi b => decide (c.maxLen.toNat < b.toNat)
  | .lenok b => decide (c.LenValid b)
  | .finBadend b => decide (b ≠ Wire.endMarker)
  | .acc _ => true
  | .sync | .hsk | .finBadcrc | .finOk => true
  | .crcInit | .crcBit | .crcByte _ | .crcCompute _ | .crcCheck _ _ => true
  | .header | .endMarker | .handshakeReq | .handshakeResp | .ack | .nack => true

end Sys2Proof
end

