-- ==== Sys2Proof/Decode.lean ====
section
/-!
DEFINITION. The decoder and, after it, the encoder. What a received byte does is decided by the dispatch word
`W = mode[1:0] ++ b[7:0]` and by three further facts: MAX_LEN, how `cnt + 1` compares with `len`, and, for the last
byte, whether the buffered CRC matches (R67, R68). The six constants are 8-bit words of their own (R62); the codec's
operations have no encoding (R68).
-/

namespace Sys2Proof

/-- How the position of the received byte, `cnt + 1`, compares with the declared length `len` (R68, R116, R117). -/
inductive Position where
  /-- `cnt + 1 < len`: more bytes of the frame follow. -/
  | before
  /-- `cnt + 1 = len`: this is the frame's last byte. -/
  | last
  /-- `cnt + 1 > len`: cannot occur (R163); no row of R68 covers it. -/
  | past
deriving DecidableEq, Repr

/-- What the operation map consults beside the dispatch word (R67). -/
structure DecodeCtx where
  cfg : Config
  position : Position
  /-- crc8(buf[2 .. len-2)) = buf[len-2], looked at for a last byte 0xBB only. -/
  crcGood : Bool
deriving DecidableEq, Repr

/-- Why a word is no instruction. -/
inductive DecodeError where
  /-- Mode encoding 3 (R24, R72: never produced). -/
  | unusedMode
  /-- ACCUM with `cnt + 1 > len`, which cannot occur (R163). -/
  | pastFrameEnd
  /-- An 8-bit word that is none of the six constants of R62. -/
  | notAConstant
  /-- A word wider than its format. -/
  | wordTooWide
  /-- A word of no width: the codec's operations have no encoding (R68). -/
  | noEncoding
deriving DecidableEq, Repr

/-- The mode's binary encoding (R24, R78; the spec's decision D7). -/
def Mode.code : Mode → BitVec 2
  | .seek => 0#2
  | .rlen => 1#2
  | .accum => 2#2

/-- The mode a 2-bit encoding stands for; 3 is unused (R78). -/
def Mode.ofCode (m : BitVec 2) : Option Mode :=
  if m = 0#2 then some .seek else if m = 1#2 then some .rlen else if m = 2#2 then some .accum else none

/-- The dispatch word `W = mode[1:0] ++ b[7:0]` (R67). -/
def dispatchWord (m : Mode) (b : Byte) : BitVec 10 := m.code ++ b

/-- The mode field of a dispatch word, bits 9:8. -/
def wordMode (w : BitVec 10) : BitVec 2 := w.extractLsb' 8 2

/-- The byte field of a dispatch word, bits 7:0. -/
def wordByte (w : BitVec 10) : Byte := w.extractLsb' 0 8

/-- The map in SEEK (R69). -/
def decodeSeek (b : Byte) : Instr :=
  if b = Wire.header then .sync else if b = Wire.handshakeReq then .hsk else .skip b

/-- The map in RLEN (R70); LENBAD and LENBAD.HI over LENOK (R68, priorities). -/
def decodeLength (c : Config) (b : Byte) : Instr :=
  if b.toNat < 4 then .lenbad b else if c.maxLen.toNat < b.toNat then .lenbadHi b else .lenok b

/-- The map in ACCUM (R71), the end marker looked at before the CRC (R122). -/
def decodeAccum (x : DecodeCtx) (b : Byte) : Except DecodeError Instr :=
  match x.position with
  | .before => .ok (.acc b)
  | .last => .ok (if b ≠ Wire.endMarker then .finBadend b else if x.crcGood then .finOk else .finBadcrc)
  | .past => .error .pastFrameEnd

/-- The operation map of R68 on a dispatch word. -/
def decode (x : DecodeCtx) (w : BitVec 10) : Except DecodeError Instr :=
  match Mode.ofCode (wordMode w) with
  | some .seek => .ok (decodeSeek (wordByte w))
  | some .rlen => .ok (decodeLength x.cfg (wordByte w))
  | some .accum => decodeAccum x (wordByte w)
  | none => .error .unusedMode

/-- The constant an 8-bit word of the formats F, H and R is (R62). -/
def decodeConstant (v : Byte) : Except DecodeError Instr :=
  if v = Wire.header then .ok .header
  else if v = Wire.endMarker then .ok .endMarker
  else if v = Wire.handshakeReq then .ok .handshakeReq
  else if v = Wire.handshakeResp then .ok .handshakeResp
  else if v = Wire.ack then .ok .ack
  else if v = Wire.nack then .ok .nack
  else .error .notAConstant

/-! ## The encoder -/

/-- An instruction's words: a dispatch word (format W), one constant byte (formats F, H, R), or none (format
internal). -/
inductive Encoding where
  | dispatch (w : BitVec 10)
  | constant (v : Byte)
  | internal
deriving DecidableEq, Repr

/-- The words of an instruction, from the operation table of R68 and the constants of R62. -/
def encode : Instr → Encoding
  | .sync => .dispatch (dispatchWord .seek Wire.header)
  | .hsk => .dispatch (dispatchWord .seek Wire.handshakeReq)
  | .skip b => .dispatch (dispatchWord .seek b)
  | .lenbad b => .dispatch (dispatchWord .rlen b)
  | .lenbadHi b => .dispatch (dispatchWord .rlen b)
  | .lenok b => .dispatch (dispatchWord .rlen b)
  | .acc b => .dispatch (dispatchWord .accum b)
  | .finBadend b => .dispatch (dispatchWord .accum b)
  | .finBadcrc => .dispatch (dispatchWord .accum Wire.endMarker)
  | .finOk => .dispatch (dispatchWord .accum Wire.endMarker)
  | .crcInit | .crcBit | .crcByte _ | .crcCompute _ | .crcCheck _ _ => .internal
  | .header => .constant Wire.header
  | .endMarker => .constant Wire.endMarker
  | .handshakeReq => .constant Wire.handshakeReq
  | .handshakeResp => .constant Wire.handshakeResp
  | .ack => .constant Wire.ack
  | .nack => .constant Wire.nack

/-- Decoding of either kind of word. -/
def decodeEncoding (x : DecodeCtx) : Encoding → Except DecodeError Instr
  | .dispatch w => decode x w
  | .constant v => decodeConstant v
  | .internal => .error .noEncoding

/-- The part of a row's `when` that its operands do not decide: what must hold of the context for the operation
map to pick the row (R68). -/
def Instr.selectedIn (x : DecodeCtx) : Instr → Bool
  | .acc _ => decide (x.position = .before)
  | .finBadend _ => decide (x.position = .last)
  | .finBadcrc => decide (x.position = .last) && !x.crcGood
  | .finOk => decide (x.position = .last) && x.crcGood
  | .sync | .hsk | .skip _ | .lenbad _ | .lenbadHi _ | .lenok _ => true
  | .crcInit | .crcBit | .crcByte _ | .crcCompute _ | .crcCheck _ _ => true
  | .header | .endMarker | .handshakeReq | .handshakeResp | .ack | .nack => true

/-! ## The table's own match and mask, row by row (spec/opcode_table.json) -/

/-- A row's pattern: a word `w` of `width` bits matches it if `w &&& mask = value`. -/
structure RowPattern where
  width : Nat
  value : Nat
  mask : Nat
deriving DecidableEq, Repr

/-- The "match" and "mask" columns of the instruction's row. -/
def Instr.row : Instr → RowPattern
  | .sync => ⟨10, 0x0AA, 0x3FF⟩
  | .hsk => ⟨10, 0x0B1, 0x3FF⟩
  | .skip _ => ⟨10, 0x000, 0x300⟩
  | .lenbad _ => ⟨10, 0x100, 0x3FC⟩
  | .lenbadHi _ => ⟨10, 0x100, 0x300⟩
  | .lenok _ => ⟨10, 0x100, 0x300⟩
  | .acc _ => ⟨10, 0x200, 0x300⟩
  | .finBadend _ => ⟨10, 0x200, 0x300⟩
  | .finBadcrc => ⟨10, 0x2BB, 0x3FF⟩
  | .finOk => ⟨10, 0x2BB, 0x3FF⟩
  | .crcInit | .crcBit | .crcByte _ | .crcCompute _ | .crcCheck _ _ => ⟨0, 0, 0⟩
  | .header => ⟨8, 0xAA, 0xFF⟩
  | .endMarker => ⟨8, 0xBB, 0xFF⟩
  | .handshakeReq => ⟨8, 0xB1, 0xFF⟩
  | .handshakeResp => ⟨8, 0x55, 0xFF⟩
  | .ack => ⟨8, 0x06, 0xFF⟩
  | .nack => ⟨8, 0x15, 0xFF⟩

/-- Does an encoding fit a row's width, match and mask? -/
def RowPattern.matches (r : RowPattern) : Encoding → Bool
  | .dispatch w => r.width = 10 && w.toNat &&& r.mask = r.value
  | .constant v => r.width = 8 && v.toNat &&& r.mask = r.value
  | .internal => r.width = 0

/-! ## A word of the table -/

/-- The context in which a bare dispatch word of the table is read (log 8): MAX_LEN = 255; in ACCUM a byte 0xBB is
read as the last byte of a frame whose CRC matches, any other byte as one before the last. -/
def tableCtx (w : BitVec 10) : DecodeCtx :=
  { cfg := Config.standard
    position := if wordByte w = Wire.endMarker then .last else .before
    crcGood := true }

/-- The instruction in a word of `nbits` bits, numbered as the opcode table numbers them: 8 bits are one of the
constants of R62, 10 bits (16 in whole bytes) a dispatch word, and no other width has an encoding. -/
def decodeWord (nbits w : Nat) : Except DecodeError Instr :=
  if nbits = 8 then
    if w < 256 then decodeConstant (BitVec.ofNat 8 w) else .error .wordTooWide
  else if nbits = 10 ∨ nbits = 16 then
    if w < 1024 then decode (tableCtx (BitVec.ofNat 10 w)) (BitVec.ofNat 10 w) else .error .wordTooWide
  else .error .noEncoding

/-- `decodeWord` with the reason of a rejection left out. -/
def decodeTableWord (nbits w : Nat) : Option Instr :=
  match decodeWord nbits w with
  | .ok i => some i
  | .error _ => none

end Sys2Proof
end

