-- ==== Sys2Proof/Machine/State.lean ====
section
/-!
DEFINITION. The machine's state as plain data, the outcomes of a step, and the state after reset.
-/

namespace Sys2Proof.Machine

/-- The accumulation buffer (R40): cells (index, byte) in one canonical form, indices strictly rising. An index that
is not listed holds no byte the engine may read (R41; stale storage is no part of the state, R29 item 3, U5): log 5. -/
abbrev Memory := List Host.Cell

/-- PacketOutcome, produced once per completed frame attempt (R11, R79: a four-constructor type). -/
inductive PacketOutcome where
  | accepted (payload : List Byte)
  | rejectedBadFraming
  | rejectedLengthMismatch
  | rejectedCrcMismatch
deriving DecidableEq, Repr

/-- The three causes of a rejection, the engine's exceptions (R170, R171). -/
inductive Rejection where
  /-- The byte at index len - 1 is not END (UDT §7: BadFraming). -/
  | badFraming
  /-- LEN below 4 or above MAX_LEN (UDT §7: LengthOutOfRange). -/
  | lengthMismatch
  /-- END is right and the CRC is not (UDT §7: CrcMismatch). -/
  | crcMismatch
deriving DecidableEq, Repr

/-- The output record of a step (R151). Its fields have no order among themselves (R156). -/
structure Out where
  /-- The reply byte put on TX by this step. -/
  tx : Option Byte := none
  /-- The packet outcome put on EV by this step. -/
  outcome : Option PacketOutcome := none
  /-- A handshake request was answered. -/
  hs : Bool := false
deriving DecidableEq, Repr

/-- The empty record (R151): no reply, no outcome, no handshake. -/
abbrev Out.empty : Out := { tx := none, outcome := none, hs := false }

/-- An event of the environment (R176, R220: a byte is received, or RESET). -/
inductive RxEvent where
  /-- A byte is received on RX (R43). -/
  | byte (b : Byte)
  /-- RESET (R200), with the byte received at the same time, if any (R201). -/
  | reset (coinciding : Option Byte)
deriving DecidableEq, Repr

/-- Why the machine stops with a fault. Neither can happen in a state with the invariants of R27. -/
inductive Fault where
  /-- A buffer read where MemRead is not defined: an index at or above `cnt`, or one that no byte was appended at
  (R41). Raised by the completion reads of FIN.BADEND, FIN.BADCRC, FIN.OK. Safe: the machine stops where the spec
  gives no value. -/
  | bufferReadUndefined
  /-- An append at an index outside the buffer, `cnt ≥ MAX_LEN` (R40, R42: capacity cannot be exceeded). Raised by
  SYNC, LENOK, ACC and the FIN operations. Safe: the machine stops where there is no such address. -/
  | bufferCapacityExceeded
deriving DecidableEq, Repr

/-- Why the machine refuses. -/
inductive Refusal where
  /-- No meaning yet, by the table's mnemonic. Raised by no arm of this model. Safe. -/
  | notModelled (mnemonic : String)
  /-- MAX_LEN outside 4 to 255: no engine is defined (D1, U1). Raised by the step. Safe. -/
  | maxLenOutOfRange
  /-- The row's `when` condition does not hold: in this state the operation map selects another row for the byte
  (R68: rows are mutually exclusive). Raised by the byte-driven operations; the step never reaches it. Safe. -/
  | notSelected
  /-- No row of R68 covers the pair: ACCUM with `cnt + 1 > len`, a state outside R27 (R163, U4). Raised by the step
  and by the constants HEADER, END, HANDSHAKE_REQ. Safe. -/
  | noOperation
deriving DecidableEq, Repr

/-- The state: the record S of R20 (`mode`, `cnt`, `buf`, `len`, `negotiated`), the constant MAX_LEN (R26), the
codec's working register and check bit (R23, R95; no part of S: log 4), and the streams: inbound events still to come
(R43, log 2) and output records produced so far (R45, R46, R157, log 3). -/
structure State where
  cfg : Config
  mode : Mode
  cnt : Byte
  buf : Memory
  len : Byte
  negotiated : Bool
  crc : Byte
  crcOk : Bool
  rx : List RxEvent
  outs : List Out
deriving DecidableEq, Repr

/-- The result of an instruction or of a step. -/
abbrev Result := Host.Outcome State Fault Refusal

/-- The state after reset: S0 of R30, MAX_LEN at the spec's standard value (log 1), the codec's registers at the
values of log 4, nothing received and nothing sent (log 2, log 3). -/
def State.reset : State :=
  { cfg := Config.standard
    mode := .seek
    cnt := 0#8
    buf := []
    len := 0#8
    negotiated := false
    crc := 0#8
    crcOk := false
    rx := []
    outs := [] }

end Sys2Proof.Machine
end

