-- ==== Sys2Proof/Machine/Codec.lean ====
section
/-!
DEFINITION. The CRC-8 as pure functions (R90: polynomial 0x07, initial value 0, most significant bit first, no
reflection, no final xor). The parser uses these (R23); the operations on the codec's register are in Crc.lean.
-/

namespace Sys2Proof.Machine

/-- The polynomial x^8 + x^2 + x + 1 without its x^8 term (R90). -/
def crcPoly : Byte := 0x07#8

/-- The seed (R90, R91). -/
def crcSeed : Byte := 0x00#8

/-- One shift step (R92): the old bit 7 is discarded, and if it was set the polynomial is xored in. -/
def crcShift (r : Byte) : Byte := if r.getLsbD 7 then (r <<< 1) ^^^ crcPoly else r <<< 1

/-- `n` shift steps. -/
def crcShifts : Nat → Byte → Byte
  | 0, r => r
  | n + 1, r => crcShifts n (crcShift r)

/-- Absorb one byte (R93): xor it in whole, then eight shift steps. -/
def crcAbsorb (r d : Byte) : Byte := crcShifts 8 (r ^^^ d)

/-- The CRC-8 of a byte sequence (R94). -/
def crc8 (bs : List Byte) : Byte := bs.foldl crcAbsorb crcSeed

/-- The check (R95): all 8 bits compared. -/
def crcMatches (payload : List Byte) (received : Byte) : Bool := decide (crc8 payload = received)

end Sys2Proof.Machine
end

