-- ==== Sys2Proof/Machine/Ops.lean ====
section
/-!
DEFINITION. The named operations of R10 over the buffer, the registers and the outputs: MemRead, append,
parser_reset, emit, raise, and the RESET event.
-/

namespace Sys2Proof.Machine

/-! ## The buffer -/

/-- The canonical form: indices strictly rising. (An unlisted index reads as nothing, so no listed cell repeats it.) -/
abbrev Memory.wf (m : Memory) : Prop := (m.map Prod.fst).Pairwise (· < ·)

/-- The byte at an index, none where none is listed. -/
def Memory.read : Memory → Nat → Option Byte
  | [], _ => none
  | (a', v) :: m, a => if a' = a then some v else Memory.read m a

/-- One byte written, the canonical form kept. -/
def Memory.write : Memory → Nat → Byte → Memory
  | [], a, v => [(a, v)]
  | (a', v') :: m, a, v =>
    if a < a' then (a, v) :: (a', v') :: m
    else if a = a' then (a, v) :: m
    else (a', v') :: Memory.write m a v

/-- The bytes at `i, …, i + n - 1`, in that order. -/
def Memory.readRange (m : Memory) (i : Nat) : Nat → Option (List Byte)
  | 0 => some []
  | n + 1 =>
    match m.read i, Memory.readRange m (i + 1) n with
    | some v, some vs => some (v :: vs)
    | _, _ => none

/-- The buffer's bytes in ascending index order: the byte sequence `buf[0 .. cnt)` of R20. -/
def State.bytes (s : State) : List Byte := s.buf.map Prod.snd

/-- `MemRead(i, n)` (R41): defined only when `i + n ≤ cnt`. -/
def memRead (s : State) (i n : Nat) : Except Fault (List Byte) :=
  if i + n ≤ s.cnt.toNat then
    match s.buf.readRange i n with
    | some vs => .ok vs
    | none => .error .bufferReadUndefined
  else .error .bufferReadUndefined

/-- `buf[i]`, which abbreviates `MemRead(i, 1)[0]` (R10). -/
def byteAt (s : State) (i : Nat) : Except Fault Byte :=
  match memRead s i 1 with
  | .ok (v :: _) => .ok v
  | .ok [] => .error .bufferReadUndefined
  | .error f => .error f

/-- `append(v)` (R42): `buf[cnt] <- v; cnt <- cnt + 1`, within the capacity MAX_LEN. -/
def append (v : Byte) (s : State) : Except Fault State :=
  if s.cnt.toNat < s.cfg.maxLen.toNat then
    .ok { s with buf := s.buf.write s.cnt.toNat v, cnt := s.cnt + 1#8 }
  else .error .bufferCapacityExceeded

/-- The buffer emptied before a new frame attempt, `cnt <- 0` (R112; R42: emptied only as a whole). -/
def clearBuffer (s : State) : State := { s with buf := [], cnt := 0#8 }

/-- `parser_reset()` (R124): `mode <- SEEK; cnt <- 0; len <- 0`, the buffer emptied, `negotiated` untouched. -/
def parserReset (s : State) : State := { s with mode := .seek, cnt := 0#8, buf := [], len := 0#8 }

/-! ## The outputs -/

/-- The step's output record, put on TX and EV (R151). -/
def emit (o : Out) (s : State) : State := { s with outs := s.outs ++ [o] }

/-- `emit_tx(v)` (R10): one byte placed on the reply stream and nothing on EV. -/
def emitTx (v : Byte) (s : State) : State := emit { tx := some v } s

/-- The reply mapping (R152). -/
def reply : PacketOutcome → Byte
  | .accepted _ => Wire.ack
  | .rejectedBadFraming => Wire.nack
  | .rejectedLengthMismatch => Wire.nack
  | .rejectedCrcMismatch => Wire.nack

/-- Outcome codes on EV (R79, R171; the spec's decision D8). -/
def PacketOutcome.code : PacketOutcome → BitVec 2
  | .accepted _ => 0#2
  | .rejectedBadFraming => 1#2
  | .rejectedLengthMismatch => 2#2
  | .rejectedCrcMismatch => 3#2

/-- The outcome a rejection is reported as (R171). -/
def Rejection.outcome : Rejection → PacketOutcome
  | .badFraming => .rejectedBadFraming
  | .lengthMismatch => .rejectedLengthMismatch
  | .crcMismatch => .rejectedCrcMismatch

/-- TAKING AN EXCEPTION: `raise <Outcome>` (R173). The outcome is reported, 0x15 is sent, the parser is reset; nothing
is saved, and control goes to SEEK. There is no return operation beside it (R180): nothing was saved, and the next
byte is classified under SEEK. -/
def raise (r : Rejection) (s : State) : State :=
  parserReset (emit { tx := some 0x15#8, outcome := some r.outcome } s)

/-- The accepting completion (R121): the outcome with its payload, the reply of R152, the parser reset. -/
def accept (payload : List Byte) (s : State) : State :=
  parserReset (emit { tx := some (reply (.accepted payload)), outcome := some (.accepted payload) } s)

/-! ## RESET -/

/-- The RESET event (R200, R201): S takes its reset values, nothing is emitted, MAX_LEN is unchanged. The inbound
events still to come and the records already sent are the environment's (log 11). -/
def resetEvent (s : State) : State :=
  { State.reset with cfg := s.cfg, rx := s.rx, outs := s.outs }

/-! ## Building a result -/

/-- Run `k` if the row's `when` condition holds; the operation does not exist in another state (R68, log 6). -/
def whenSelected (p : Prop) [Decidable p] (k : Result) : Result := if p then k else .refused .notSelected

/-- Continue with the value of an operation, or stop with its fault. -/
def orFault {α : Type} (x : Except Fault α) (k : α → Result) : Result :=
  match x with
  | .ok a => k a
  | .error f => .fault f

end Sys2Proof.Machine
end

