-- ==== Sys2Proof/Machine/Operands.lean ====
section
/-!
DEFINITION. What the operations read beside the received byte: the position in the frame (R24, R116, R117) and, on
completion, the end marker, the CRC byte and the payload taken out of the full buffer (R66, R117).
-/

namespace Sys2Proof.Machine

/-- How `cnt + 1` compares with `len`, without wrap-around (R96). -/
def position (s : State) : Position :=
  if s.cnt.toNat + 1 < s.len.toNat then .before
  else if s.cnt.toNat + 1 = s.len.toNat then .last
  else .past

/-- What a completed frame holds: `e = B[len-1]`, `c = B[len-2]`, `p = B[2 .. len-2)` (R117). -/
structure Completion where
  endByte : Byte
  crcByte : Byte
  payload : List Byte
deriving DecidableEq, Repr

/-- The common part of the three completing operations (R117): the byte is appended, then the trailer and the payload
are read from the full buffer. The index computations need `len ≥ 4` (R65, R96). -/
def completion (b : Byte) (s : State) : Except Fault Completion :=
  if s.len.toNat < 4 then .error .bufferReadUndefined else
  match append b s with
  | .error f => .error f
  | .ok full =>
    match byteAt full (s.len.toNat - 1), byteAt full (s.len.toNat - 2), memRead full 2 (s.len.toNat - 4) with
    | .ok e, .ok c, .ok p => .ok { endByte := e, crcByte := c, payload := p }
    | _, _, _ => .error .bufferReadUndefined

/-- Does the CRC check of R95 pass on the frame that an END byte would complete now? -/
def crcGood (s : State) : Bool :=
  match completion Wire.endMarker s with
  | .ok f => crcMatches f.payload f.crcByte
  | .error _ => false

/-- What the operation map consults in state `s` beside the dispatch word (R67). -/
def decodeCtx (s : State) : DecodeCtx := { cfg := s.cfg, position := position s, crcGood := crcGood s }

end Sys2Proof.Machine
end

