-- ==== Sys2Proof/Machine/Flags.lean ====
section
/-!
DEFINITION. The engine's one flag, `negotiated` (R25), and the codec's one-bit result (R95). No other flag or condition
code exists (R25).
-/

namespace Sys2Proof.Machine

/-- `negotiated <- true` (R141). No operation clears it and none reads it; only RESET clears it (R25). -/
def setNegotiated (s : State) : State := { s with negotiated := true }

/-- `ok <- (crc8(p) = c)` (R95). -/
def setCrcOk (ok : Bool) (s : State) : State := { s with crcOk := ok }

end Sys2Proof.Machine
end

