-- ==== Sys2Proof/Machine/Handshake.lean ====
section
/-!
DEFINITION. The handshake recogniser's operation HSK (R141).
-/

namespace Sys2Proof.Machine

/-- HSK (R141): `negotiated <- true`, 0x55 sent, the handshake event set; the parser stays idle. The first and every
later request alike (R143, the spec's decision D13). -/
def execHsk (s : State) : Result :=
  whenSelected (s.mode = .seek) <|
    .next (emit { tx := some Wire.handshakeResp, hs := true } (setNegotiated s))

end Sys2Proof.Machine
end

