-- ==== Sys2Proof/Machine/Parser.lean ====
section
/-!
DEFINITION. The frame parser's operations (R111 to R121). Each stops with `notSelected` in a state in which its row's
`when` does not hold (log 6).
-/

namespace Sys2Proof.Machine

/-- SKIP (R111): a noise byte is discarded; no state change, no output. -/
def execSkip (b : Byte) (s : State) : Result :=
  whenSelected (s.mode = .seek ∧ b ≠ Wire.header ∧ b ≠ Wire.handshakeReq) (.next (emit Out.empty s))

/-- SYNC (R112): a new accumulation buffer `[AA]`; go to RLEN. -/
def execSync (s : State) : Result :=
  whenSelected (s.mode = .seek) <|
    orFault (append Wire.header (clearBuffer s)) fun t => .next (emit Out.empty { t with mode := .rlen })

/-- LENOK (R114): append the length byte, record it, go to ACCUM. -/
def execLenok (b : Byte) (s : State) : Result :=
  whenSelected (s.mode = .rlen ∧ s.cfg.LenValid b) <|
    orFault (append b s) fun t => .next (emit Out.empty { t with len := b, mode := .accum })

/-- LENBAD (R115), `b < 4`. -/
def execLenbad (b : Byte) (s : State) : Result :=
  whenSelected (s.mode = .rlen ∧ b.toNat < 4) (.next (raise .lengthMismatch s))

/-- LENBAD.HI (R115), `b > MAX_LEN`. -/
def execLenbadHi (b : Byte) (s : State) : Result :=
  whenSelected (s.mode = .rlen ∧ s.cfg.maxLen.toNat < b.toNat) (.next (raise .lengthMismatch s))

/-- ACC (R116): append a byte of the frame, whatever its value. -/
def execAcc (b : Byte) (s : State) : Result :=
  whenSelected (s.mode = .accum ∧ position s = .before) <|
    orFault (append b s) fun t => .next (emit Out.empty t)

/-- FIN.BADEND (R119): the byte at index len - 1 is not END; the CRC is not evaluated. -/
def execFinBadend (b : Byte) (s : State) : Result :=
  whenSelected (s.mode = .accum ∧ position s = .last) <|
    orFault (completion b s) fun f =>
      whenSelected (f.endByte ≠ Wire.endMarker) (.next (raise .badFraming s))

/-- FIN.BADCRC (R120): END is right, the CRC of the payload is not the CRC byte. -/
def execFinBadcrc (s : State) : Result :=
  whenSelected (s.mode = .accum ∧ position s = .last) <|
    orFault (completion Wire.endMarker s) fun f =>
      whenSelected (crcMatches f.payload f.crcByte = false) (.next (raise .crcMismatch s))

/-- FIN.OK (R121): END and CRC are right; the payload is delivered and acknowledged. -/
def execFinOk (s : State) : Result :=
  whenSelected (s.mode = .accum ∧ position s = .last) <|
    orFault (completion Wire.endMarker s) fun f =>
      whenSelected (crcMatches f.payload f.crcByte = true) (.next (accept f.payload s))

end Sys2Proof.Machine
end

