-- ==== Sys2Proof/Machine/Constants.lean ====
section
/-!
DEFINITION. The reference step of R163, and the six constant byte values of R62 as instructions (log 9): a constant
sent by the peer is the receipt of that byte, whatever the mode makes of it (R69 to R71); a constant sent by the engine
is its emission on TX (R10 `emit_tx`, R64).
-/

namespace Sys2Proof.Machine

/-- The step on one received byte as R163 writes it in one place. -/
def receive (b : Byte) (s : State) : Result :=
  match s.mode with
  | .seek =>
    if b = Wire.header then execSync s
    else if b = Wire.handshakeReq then execHsk s
    else execSkip b s
  | .rlen =>
    if b.toNat < 4 then execLenbad b s
    else if s.cfg.maxLen.toNat < b.toNat then execLenbadHi b s
    else execLenok b s
  | .accum =>
    match position s with
    | .before => execAcc b s
    | .last =>
      if b ≠ Wire.endMarker then execFinBadend b s
      else if crcGood s then execFinOk s
      else execFinBadcrc s
    | .past => .refused .noOperation

/-- HEADER received: recognised as a header in SEEK only. -/
def execHeader (s : State) : Result := receive Wire.header s

/-- END received: recognised as an end marker at index len - 1 only. -/
def execEndMarker (s : State) : Result := receive Wire.endMarker s

/-- HANDSHAKE_REQ received: recognised as a request in SEEK only (R63, R142). -/
def execHandshakeReq (s : State) : Result := receive Wire.handshakeReq s

/-- HANDSHAKE_RESP put on TX, as HSK does. -/
def execHandshakeResp (s : State) : Result := .next (emitTx Wire.handshakeResp s)

/-- ACK put on TX, as FIN.OK does. -/
def execAck (s : State) : Result := .next (emitTx Wire.ack s)

/-- NACK put on TX, as LENBAD, FIN.BADEND and FIN.BADCRC do. -/
def execNack (s : State) : Result := .next (emitTx Wire.nack s)

end Sys2Proof.Machine
end

