-- ==== Sys2Proof/Machine/Crc.lean ====
section
/-!
DEFINITION. The codec's internal operations (R91 to R95), on its working register `crc`. They touch no field of S and
produce no output (R94). CRC.INIT, CRC.BYTE and CRC.COMPUTE are written as their pseudocode builds them, one from the
other.
-/

namespace Sys2Proof.Machine

/-- `crc <- v`, the codec's register written (R91, R92). -/
def setCrc (v : Byte) (s : State) : State := { s with crc := v }

/-- CRC.BIT `n` times (R92, R93). -/
def crcBits : Nat → State → State
  | 0, s => s
  | n + 1, s => crcBits n (setCrc (crcShift s.crc) s)

/-- The register after absorbing one byte: `crc <- crc ^ d`, then CRC.BIT eight times (R93). -/
def crcTake (s : State) (d : Byte) : State := crcBits 8 (setCrc (s.crc ^^^ d) s)

/-- The register after CRC.INIT and CRC.BYTE for each byte in order (R94). -/
def crcRun (bs : List Byte) (s : State) : State := bs.foldl crcTake (setCrc crcSeed s)

/-- CRC.INIT (R91). -/
def execCrcInit (s : State) : Result := .next (setCrc crcSeed s)

/-- CRC.BIT (R92). -/
def execCrcBit (s : State) : Result := .next (crcBits 1 s)

/-- CRC.BYTE (R93). -/
def execCrcByte (d : Byte) (s : State) : Result := .next (crcTake s d)

/-- CRC.COMPUTE (R94): the result stands in `crc`. -/
def execCrcCompute (bs : List Byte) (s : State) : Result := .next (crcRun bs s)

/-- CRC.CHECK (R95): CRC.COMPUTE of the payload, then the comparison (log 19: the register keeps the computed CRC). -/
def execCrcCheck (payload : List Byte) (received : Byte) (s : State) : Result :=
  .next (setCrcOk (decide ((crcRun payload s).crc = received)) (crcRun payload s))

end Sys2Proof.Machine
end

