-- ==== Sys2Proof/Machine/Dispatch.lean ====
section
/-!
DEFINITION. One arm per instruction.
-/

namespace Sys2Proof.Machine

def exec (i : Instr) (s : State) : Host.Outcome State Fault Refusal :=
  match i with
  | .sync => Sys2Proof.Machine.execSync s
  | .hsk => Sys2Proof.Machine.execHsk s
  | .skip b => Sys2Proof.Machine.execSkip b s
  | .lenbad b => Sys2Proof.Machine.execLenbad b s
  | .lenbadHi b => Sys2Proof.Machine.execLenbadHi b s
  | .lenok b => Sys2Proof.Machine.execLenok b s
  | .acc b => Sys2Proof.Machine.execAcc b s
  | .finBadend b => Sys2Proof.Machine.execFinBadend b s
  | .finBadcrc => Sys2Proof.Machine.execFinBadcrc s
  | .finOk => Sys2Proof.Machine.execFinOk s
  | .crcInit => Sys2Proof.Machine.execCrcInit s
  | .crcBit => Sys2Proof.Machine.execCrcBit s
  | .crcByte d => Sys2Proof.Machine.execCrcByte d s
  | .crcCompute bs => Sys2Proof.Machine.execCrcCompute bs s
  | .crcCheck payload received => Sys2Proof.Machine.execCrcCheck payload received s
  | .header => Sys2Proof.Machine.execHeader s
  | .endMarker => Sys2Proof.Machine.execEndMarker s
  | .handshakeReq => Sys2Proof.Machine.execHandshakeReq s
  | .handshakeResp => Sys2Proof.Machine.execHandshakeResp s
  | .ack => Sys2Proof.Machine.execAck s
  | .nack => Sys2Proof.Machine.execNack s

end Sys2Proof.Machine
end

