-- ==== Sys2Proof/Machine/Engine.lean ====
section
/-!
DEFINITION. What one event does (a received byte, or RESET), the run over a sequence of events (R157), and the placing
of a table word where the next step fetches.
-/

namespace Sys2Proof.Machine

/-- One received byte (R150): its dispatch word is decoded in the state's context and the operation selected is
executed. -/
def executeByte (b : Byte) (s : State) : Result :=
  match decode (decodeCtx s) (dispatchWord s.mode b) with
  | .ok i => exec i s
  | .error _ => .refused .noOperation

/-- One event, already taken from the inbound stream. RESET wins over a byte that coincides with it (R201). -/
def handleEvent (e : RxEvent) (s : State) : Result :=
  if s.cfg.Valid then
    match e with
    | .byte b => executeByte b s
    | .reset _ => .next (resetEvent s)
  else .refused .maxLenOutOfRange

/-- Take the next event from the inbound stream, read once and in order (R44). Without one the engine takes no step and
its state does not change (R150). -/
def fetchAndRun (s : State) : Result :=
  match s.rx with
  | [] => if s.cfg.Valid then .next s else .refused .maxLenOutOfRange
  | e :: rest => handleEvent e { s with rx := rest }

/-- `run(S, bs)` (R157) over events handed in one by one: a chunk has no meaning of its own (R158). -/
def run : List RxEvent → State → Result
  | [], s => .next s
  | e :: es, s =>
    match handleEvent e s with
    | .next t => run es t
    | .fault f => .fault f
    | .refused r => .refused r

/-! ## Placing a word of the opcode table (log 8) -/

/-- The parser where the mode of a dispatch word and `tableCtx` say: idle in SEEK, `[AA]` in RLEN; in ACCUM a frame of
declared length 4, one byte short of a valid end for 0xBB and two bytes short of its end for any other byte. -/
def placeParser (m : Mode) (b : Byte) (s : State) : State :=
  match m with
  | .seek => { s with mode := .seek, cnt := 0#8, buf := [], len := 0#8 }
  | .rlen => { s with mode := .rlen, cnt := 1#8, buf := [(0, Wire.header)], len := 0#8 }
  | .accum =>
    if b = Wire.endMarker then
      { s with mode := .accum, cnt := 3#8, buf := [(0, Wire.header), (1, 4#8), (2, 0#8)], len := 4#8 }
    else { s with mode := .accum, cnt := 2#8, buf := [(0, Wire.header), (1, 4#8)], len := 4#8 }

/-- The parser placed, MAX_LEN at the table's 255, and the byte next on RX. -/
def placeByte (m : Mode) (b : Byte) (s : State) : State :=
  { placeParser m b s with cfg := Config.standard, rx := .byte b :: s.rx }

/-- A constant placed: one sent by the peer is put on RX, nothing else changed; for one sent by the engine the machine is
placed where the next step sends it (0x55 by HSK, 0x06 by FIN.OK, 0x15 by LENBAD). -/
def placeConstant (v : Byte) (s : State) : State :=
  if v = Wire.handshakeResp then placeByte .seek Wire.handshakeReq s
  else if v = Wire.ack then placeByte .accum Wire.endMarker s
  else if v = Wire.nack then placeByte .rlen 0#8 s
  else { s with rx := .byte v :: s.rx }

/-- A word of the table placed where the next step fetches. A word that is no instruction changes nothing. -/
def placeWord (s : State) (nbits w : Nat) : State :=
  if nbits = 8 then
    if w < 256 then placeConstant (BitVec.ofNat 8 w) s else s
  else if nbits = 10 ∨ nbits = 16 then
    if w < 1024 then
      match Mode.ofCode (wordMode (BitVec.ofNat 10 w)) with
      | some m => placeByte m (wordByte (BitVec.ofNat 10 w)) s
      | none => s
    else s
  else s

end Sys2Proof.Machine
end

