-- ==== Sys2Proof/Machine/Step.lean ====
section
/-!
DEFINITION. One step of the machine.
-/

namespace Sys2Proof.Machine

/-- One step: the next inbound event, if there is one (R150, R220). -/
def step (s : State) : Host.Outcome State Fault Refusal := fetchAndRun s

/-- A word of the opcode table placed where the next step fetches it (log 8). -/
def State.withFetchWord (s : State) (nbits w : Nat) : State := placeWord s nbits w

end Sys2Proof.Machine
end

