-- ==== Sys2Proof/Machine/Streams.lean ====
section
/-!
DEFINITION. The streams as the spec writes them: TX and EV as views of the output records (R157), the machine stepped
several times, and the macros of R76 for building inbound streams. The engine itself never builds a frame (R5); these
serve statements only.
-/

namespace Sys2Proof.Machine

/-- TX(os): all reply bytes, in order (R157). -/
def txOf (os : List Out) : List Byte := os.filterMap Out.tx

/-- What stands on EV: an outcome, or an answered handshake request (R46). -/
inductive EvItem where
  | outcome (o : PacketOutcome)
  | handshake
deriving DecidableEq, Repr

/-- One record's part of EV. -/
def Out.events (o : Out) : List EvItem :=
  (match o.outcome with
    | some p => [.outcome p]
    | none => []) ++ (if o.hs then [.handshake] else [])

/-- EV(os): all outcomes and answered handshakes, in order (R157). -/
def evOf (os : List Out) : List EvItem := os.flatMap Out.events

/-- The packet outcomes alone, in order. -/
def outcomesOf (os : List Out) : List PacketOutcome := os.filterMap Out.outcome

/-- `n` steps of the machine, stopping at the first that answers no next state. -/
def steps : Nat → State → Result
  | 0, s => .next s
  | n + 1, s =>
    match step s with
    | .next t => steps n t
    | .fault f => .fault f
    | .refused r => .refused r

/-- A byte sequence as inbound events. -/
def received (bs : List Byte) : List RxEvent := bs.map RxEvent.byte

/-- A frame with its LEN right and any CRC and END byte (R76: `FRAME(p; crc=c)`, `FRAME(p; end=e)`). -/
def frameWith (p : List Byte) (c e : Byte) : List Byte :=
  [Wire.header, BitVec.ofNat 8 (p.length + 4)] ++ p ++ [c, e]

/-- `FRAME(p)` (R76, R60). -/
def frame (p : List Byte) : List Byte := frameWith p (crc8 p) Wire.endMarker

end Sys2Proof.Machine
end

