-- ==== Sys2Proof/Safety.lean ====
section
/-!
DEFINITION. What a safe state is: the invariants of R27, in the terms claims use.
-/

namespace Sys2Proof.Machine

/-- R27 item 1: in SEEK the parser is idle. -/
abbrev State.SeekInv (s : State) : Prop := s.cnt = 0#8 ∧ s.buf = [] ∧ s.len = 0#8

/-- R27 item 2: in RLEN the buffer is `[AA]`. -/
abbrev State.RlenInv (s : State) : Prop := s.cnt = 1#8 ∧ s.buf = [(0, Wire.header)] ∧ s.len = 0#8

/-- R27 item 3: in ACCUM `4 ≤ len ≤ MAX_LEN`, `2 ≤ cnt ≤ len - 1`, `buf[0] = AA`, `buf[1] = len`, and (R20) the buffer
holds exactly the indices `0 .. cnt - 1`. -/
abbrev State.AccumInv (s : State) : Prop :=
  4 ≤ s.len.toNat ∧ s.len.toNat ≤ s.cfg.maxLen.toNat ∧
  2 ≤ s.cnt.toNat ∧ s.cnt.toNat + 1 ≤ s.len.toNat ∧
  s.buf.map Prod.fst = List.range s.cnt.toNat ∧
  s.buf.read 0 = some Wire.header ∧ s.buf.read 1 = some s.len

/-- The invariants of R27 with the parameter in its range (R6). Item 4 follows from items 1 to 3; item 5 speaks of a
run and is a statement of its own. -/
abbrev State.Inv (s : State) : Prop :=
  s.cfg.Valid ∧ (s.mode = .seek → s.SeekInv) ∧ (s.mode = .rlen → s.RlenInv) ∧ (s.mode = .accum → s.AccumInv)

/-- The engine waits at a frame boundary (R28): the invariants hold and the mode is SEEK. -/
abbrev State.Idle (s : State) : Prop := s.Inv ∧ s.mode = .seek

/-! ## The operation map's conditions, in the table's words -/

/-- The payload of the frame that the next byte would complete: `B[2 .. len-2)`, all of it already buffered (R66). -/
def State.framePayload (s : State) : List Byte := (s.bytes.drop 2).take (s.len.toNat - 4)

/-- The CRC byte of that frame, `B[len-2]`, already buffered (R66). -/
def State.frameCrc (s : State) : Option Byte := s.bytes[s.len.toNat - 2]?

/-- The `when` column of spec/opcode_table.json (R68): byte `b`, received in state `s`, is the operation `i`. The codec's
operations and the constants are selected by no byte. -/
def Selects (s : State) (b : Byte) : Instr → Prop
  | .sync => s.mode = .seek ∧ b = 0xAA#8
  | .hsk => s.mode = .seek ∧ b = 0xB1#8
  | .skip b' => b' = b ∧ s.mode = .seek ∧ b ≠ 0xAA#8 ∧ b ≠ 0xB1#8
  | .lenbad b' => b' = b ∧ s.mode = .rlen ∧ b.toNat < 4
  | .lenbadHi b' => b' = b ∧ s.mode = .rlen ∧ s.cfg.maxLen.toNat < b.toNat
  | .lenok b' => b' = b ∧ s.mode = .rlen ∧ 4 ≤ b.toNat ∧ b.toNat ≤ s.cfg.maxLen.toNat
  | .acc b' => b' = b ∧ s.mode = .accum ∧ s.cnt.toNat + 1 < s.len.toNat
  | .finBadend b' => b' = b ∧ s.mode = .accum ∧ s.cnt.toNat + 1 = s.len.toNat ∧ b ≠ 0xBB#8
  | .finBadcrc =>
    s.mode = .accum ∧ s.cnt.toNat + 1 = s.len.toNat ∧ b = 0xBB#8 ∧ s.frameCrc ≠ some (crc8 s.framePayload)
  | .finOk =>
    s.mode = .accum ∧ s.cnt.toNat + 1 = s.len.toNat ∧ b = 0xBB#8 ∧ s.frameCrc = some (crc8 s.framePayload)
  | .crcInit | .crcBit | .crcByte _ | .crcCompute _ | .crcCheck _ _ => False
  | .header | .endMarker | .handshakeReq | .handshakeResp | .ack | .nack => False

/-! ## Terms statements are written in -/

/-- Instruction `i` takes `s` to `t`, and so does a step of the machine that receives byte `b` in `s`, the rest of the
inbound stream untouched. -/
def Completes (i : Instr) (b : Byte) (s t : State) : Prop :=
  exec i s = .next t ∧ ∀ r, step { s with rx := .byte b :: r } = .next { t with rx := r }

/-- `s` with the parser idle (R28) and one more output record. -/
def State.idleWith (s : State) (o : Out) : State :=
  { s with mode := .seek, cnt := 0#8, buf := [], len := 0#8, outs := s.outs ++ [o] }

/-- The shift step of R92 in numbers: twice the register within 8 bits, and 0x07 xored in if bit 7 was set. -/
def shiftStep (r : Byte) : Byte :=
  BitVec.ofNat 8 (2 * r.toNat) ^^^ (if 128 ≤ r.toNat then 0x07#8 else 0x00#8)

end Sys2Proof.Machine
end

