-- ==== Sys2Proof/Certificates/Slice0/Obligations.lean ====
section
/-!
DEFINITION. The statements for the provers, from the numbered rules of spec/. Byte values are written as the spec writes
them (0xAA, 0xBB, 0xB1, 0x55, 0x06, 0x15). `State.Inv` is the invariant of R27; it is kept by every step
(`StepKeepsInvariants`) and holds at reset (`ResetStateIsS0`).
-/

open Sys2Proof Sys2Proof.Machine

/-! ## Decoding and encoding -/

/-- Words written out from the spec's encodings decode to their rows (R68 for the dispatch words, R62 for the
constants). -/
def Obligations.WrittenOutWordsDecode : Prop :=
  ∀ good : Bool,
    decode ⟨⟨255#8⟩, .before, good⟩ 0b0010101010#10 = .ok .sync ∧
    decode ⟨⟨255#8⟩, .before, good⟩ 0b0010110001#10 = .ok .hsk ∧
    decode ⟨⟨255#8⟩, .before, good⟩ 0b0010111011#10 = .ok (.skip 0xBB#8) ∧
    decode ⟨⟨255#8⟩, .before, good⟩ 0b0100000011#10 = .ok (.lenbad 3#8) ∧
    decode ⟨⟨255#8⟩, .before, good⟩ 0b0100000100#10 = .ok (.lenok 4#8) ∧
    decode ⟨⟨16#8⟩, .before, good⟩ 0b0100010001#10 = .ok (.lenbadHi 17#8) ∧
    decode ⟨⟨255#8⟩, .before, good⟩ 0b1010111011#10 = .ok (.acc 0xBB#8) ∧
    decode ⟨⟨255#8⟩, .last, good⟩ 0b1010111010#10 = .ok (.finBadend 0xBA#8) ∧
    decode ⟨⟨255#8⟩, .last, false⟩ 0b1010111011#10 = .ok .finBadcrc ∧
    decode ⟨⟨255#8⟩, .last, true⟩ 0b1010111011#10 = .ok .finOk ∧
    decodeConstant 0b10101010#8 = .ok .header ∧
    decodeConstant 0b10111011#8 = .ok .endMarker ∧
    decodeConstant 0b10110001#8 = .ok .handshakeReq ∧
    decodeConstant 0b01010101#8 = .ok .handshakeResp ∧
    decodeConstant 0b00000110#8 = .ok .ack ∧
    decodeConstant 0b00010101#8 = .ok .nack

/-- Every well-formed instruction that has an encoding, in every context that selects its row, is what its encoding
decodes to. -/
def Obligations.DecodeOfEncode : Prop :=
  ∀ (x : DecodeCtx) (i : Instr), x.cfg.Valid → i.wf x.cfg = true → i.selectedIn x = true →
    encode i ≠ .internal → decodeEncoding x (encode i) = .ok i

/-- What a word decodes to has that word as its encoding, is well-formed, and is a row its context selects. -/
def Obligations.EncodeOfDecode : Prop :=
  (∀ (x : DecodeCtx) (w : BitVec 10) (i : Instr), decode x w = .ok i →
    encode i = .dispatch w ∧ i.wf x.cfg = true ∧ i.selectedIn x = true) ∧
  (∀ (v : Byte) (i : Instr), decodeConstant v = .ok i → encode i = .constant v)

/-- The operation map is exhaustive and its rows exclude each other (R68, R75): in every state with the invariants, every
byte meets the `when` of exactly one row, and that row is what the decoder gives. -/
def Obligations.EveryByteSelectsOneOperation : Prop :=
  ∀ (s : State) (b : Byte), s.Inv →
    ∃ i, Selects s b i ∧ (∀ j, Selects s b j → j = i) ∧
      decode (decodeCtx s) (dispatchWord s.mode b) = .ok i

/-- A byte-driven operation answers a next state only where its row's `when` holds for the byte of its encoding. -/
def Obligations.OperationsRunOnlyWhenSelected : Prop :=
  ∀ (s t : State) (i : Instr) (w : BitVec 10), s.Inv → encode i = .dispatch w → exec i s = .next t →
    Selects s (wordByte w) i

/-! ## The step, reset, the invariants -/

/-- A step that receives a byte runs the instruction its dispatch word decodes to, the rest of RX kept. -/
def Obligations.StepRunsDecodedInstruction : Prop :=
  ∀ (s : State) (b : Byte) (r : List RxEvent) (i : Instr), s.cfg.Valid →
    decode (decodeCtx s) (dispatchWord s.mode b) = .ok i →
    step { s with rx := .byte b :: r } = exec i { s with rx := r }

/-- Without a received byte and without RESET the state does not change (R150; the model's reading, log 2). -/
def Obligations.StepWithoutEventChangesNothing : Prop :=
  ∀ s : State, s.cfg.Valid → s.rx = [] → step s = .next s

/-- With MAX_LEN outside 4 to 255 no engine is defined (the spec's decision D1): the step refuses, and it refuses so for
no other reason. -/
def Obligations.StepRefusesExactlyInvalidMaxLen : Prop :=
  ∀ s : State, step s = .refused .maxLenOutOfRange ↔ ¬ (4 ≤ s.cfg.maxLen.toNat ∧ s.cfg.maxLen.toNat ≤ 255)

/-- The step is the reference step of R163, in every state with an admitted MAX_LEN. -/
def Obligations.StepIsReferenceStep : Prop :=
  ∀ (s : State) (b : Byte) (r : List RxEvent), s.cfg.Valid →
    step { s with rx := .byte b :: r } = receive b { s with rx := r }

/-- The reset state: S0 of R30, and the invariants of R27 hold in it. (`len` and `negotiated` are the spec's decisions D11
and D5.) -/
def Obligations.ResetStateIsS0 : Prop :=
  State.reset.mode = .seek ∧ State.reset.cnt = 0#8 ∧ State.reset.buf = [] ∧ State.reset.len = 0#8 ∧
    State.reset.negotiated = false ∧ State.reset.Inv

/-- RESET between two steps, alone or with a coinciding byte (the spec's decision D9): S takes its reset values, nothing is
emitted, MAX_LEN and the rest of RX stay. That the codec's registers are cleared is the model's choice (log 4, log 11). -/
def Obligations.ResetEventEntersS0 : Prop :=
  ∀ (s : State) (c : Option Byte) (r : List RxEvent), s.cfg.Valid →
    step { s with rx := .reset c :: r } =
      .next { s with mode := .seek, cnt := 0#8, buf := [], len := 0#8, negotiated := false,
                     crc := 0#8, crcOk := false, rx := r }

/-- The invariants of R27 are kept by every step, from every state that has them. -/
def Obligations.StepKeepsInvariants : Prop :=
  ∀ s t : State, s.Inv → step s = .next t → t.Inv

/-- In every state with the invariants the step answers a next state: no fault and no refusal is needed (R75, R189). -/
def Obligations.StepAlwaysAnswers : Prop :=
  ∀ s : State, s.Inv → ∃ t, step s = .next t

/-- The buffer keeps its canonical form (indices strictly rising) under every step, from every state. -/
def Obligations.StepKeepsBufferCanonical : Prop :=
  ∀ s t : State, s.buf.wf → step s = .next t → t.buf.wf

/-- MAX_LEN is constant: no instruction and no step changes it (R6, R26, R201). -/
def Obligations.MaxLenNeverChanges : Prop :=
  (∀ (i : Instr) (s t : State), exec i s = .next t → t.cfg = s.cfg) ∧
  (∀ s t : State, step s = .next t → t.cfg = s.cfg)

/-- Between steps the buffer holds `cnt ≤ MAX_LEN - 1` bytes, so an append never exceeds the capacity (R27 item 4). -/
def Obligations.BufferNeverFullBetweenSteps : Prop :=
  ∀ s : State, s.Inv → s.bytes.length = s.cnt.toNat ∧ s.cnt.toNat + 1 ≤ s.cfg.maxLen.toNat

/-! ## The byte-driven operations -/

/-- SYNC (R112): 0xAA in SEEK starts the buffer `[AA]`, goes to RLEN, and outputs nothing. -/
def Obligations.SyncStartsFrame : Prop :=
  ∀ s : State, s.cfg.Valid → s.mode = .seek →
    Completes .sync 0xAA#8 s
      { s with mode := .rlen, cnt := 1#8, buf := [(0, 0xAA#8)], outs := s.outs ++ [Out.empty] }

/-- SKIP (R111): any other byte but 0xB1 in SEEK changes nothing and outputs nothing. -/
def Obligations.NoiseIsSkipped : Prop :=
  ∀ (s : State) (b : Byte), s.cfg.Valid → s.mode = .seek → b ≠ 0xAA#8 → b ≠ 0xB1#8 →
    Completes (.skip b) b s { s with outs := s.outs ++ [Out.empty] }

/-- HSK (R141): 0xB1 in SEEK sets `negotiated`, sends 0x55, and leaves the parser as it was. That the output record has a
handshake mark is the spec's decision D3; that a repeated request is answered alike is its decision D13. -/
def Obligations.HandshakeIsAnswered : Prop :=
  ∀ s : State, s.cfg.Valid → s.mode = .seek →
    Completes .hsk 0xB1#8 s
      { s with negotiated := true, outs := s.outs ++ [{ tx := some 0x55#8, hs := true }] }

/-- LENOK (R113, R114): a length from 4 to MAX_LEN is appended and recorded, and the parser goes to ACCUM. -/
def Obligations.LengthIsCaptured : Prop :=
  ∀ (s : State) (b : Byte), s.Inv → s.mode = .rlen → 4 ≤ b.toNat → b.toNat ≤ s.cfg.maxLen.toNat →
    Completes (.lenok b) b s
      { s with mode := .accum, cnt := 2#8, buf := [(0, 0xAA#8), (1, b)], len := b, outs := s.outs ++ [Out.empty] }

/-- LENBAD and LENBAD.HI (R113, R115): a length below 4 or above MAX_LEN is consumed, the outcome is
RejectedLengthMismatch, 0x15 is sent, and the parser is reset. That the reset clears `len` is the spec's decision D11. -/
def Obligations.LengthIsRejected : Prop :=
  ∀ (s : State) (b : Byte), s.cfg.Valid → s.mode = .rlen →
    (b.toNat < 4 → Completes (.lenbad b) b s
      (s.idleWith { tx := some 0x15#8, outcome := some .rejectedLengthMismatch })) ∧
    (s.cfg.maxLen.toNat < b.toNat → Completes (.lenbadHi b) b s
      (s.idleWith { tx := some 0x15#8, outcome := some .rejectedLengthMismatch }))

/-- ACC (R116): before the last position any byte is appended and nothing else happens. -/
def Obligations.ByteIsAccumulated : Prop :=
  ∀ (s : State) (b : Byte), s.Inv → s.mode = .accum → s.cnt.toNat + 1 < s.len.toNat →
    Completes (.acc b) b s
      { s with buf := s.buf ++ [(s.cnt.toNat, b)], cnt := s.cnt + 1#8, outs := s.outs ++ [Out.empty] }

/-- FIN.BADEND (R119): a last byte other than 0xBB, whatever the CRC byte: RejectedBadFraming, 0x15, parser reset (`len` cleared by
the spec's decision D11). -/
def Obligations.WrongEndIsRejected : Prop :=
  ∀ (s : State) (b : Byte), s.Inv → s.mode = .accum → s.cnt.toNat + 1 = s.len.toNat → b ≠ 0xBB#8 →
    Completes (.finBadend b) b s (s.idleWith { tx := some 0x15#8, outcome := some .rejectedBadFraming })

/-- FIN.BADCRC (R120): a last byte 0xBB and a CRC byte other than the CRC-8 of the payload `B[2 .. len-2)`:
RejectedCrcMismatch, 0x15, no payload, parser reset (`len` cleared by the spec's decision D11). -/
def Obligations.WrongCrcIsRejected : Prop :=
  ∀ s : State, s.Inv → s.mode = .accum → s.cnt.toNat + 1 = s.len.toNat →
    s.frameCrc ≠ some (crc8 s.framePayload) →
    Completes .finBadcrc 0xBB#8 s (s.idleWith { tx := some 0x15#8, outcome := some .rejectedCrcMismatch })

/-- FIN.OK (R121): a last byte 0xBB and the right CRC byte: Accepted(payload), 0x06, parser reset (`len` cleared by the
spec's decision D11), `negotiated` neither read nor written. -/
def Obligations.GoodFrameIsAccepted : Prop :=
  ∀ s : State, s.Inv → s.mode = .accum → s.cnt.toNat + 1 = s.len.toNat →
    s.frameCrc = some (crc8 s.framePayload) →
    Completes .finOk 0xBB#8 s
      (s.idleWith { tx := some 0x06#8, outcome := some (.accepted s.framePayload) })

/-- Inside a frame attempt 0xB1 is no handshake request (R142): no 0x55 is sent, no handshake is reported and `negotiated`
stays. -/
def Obligations.HandshakeOnlyBetweenFrames : Prop :=
  ∀ (s : State) (r : List RxEvent), s.Inv → s.mode ≠ .seek →
    ∃ t o, step { s with rx := .byte 0xB1#8 :: r } = .next t ∧ t.outs = s.outs ++ [o] ∧
      o.tx ≠ some 0x55#8 ∧ o.hs = false ∧ t.negotiated = s.negotiated

/-! ## Rejections and replies -/

/-- Each outcome has exactly its cause (R171, R178): the length at the second byte, END at the last byte before the CRC, the
CRC only with END right, and acceptance only with all three right. -/
def Obligations.OutcomesHaveTheirCauses : Prop :=
  ∀ (s : State) (b : Byte) (r : List RxEvent), s.Inv →
    ∃ t o, step { s with rx := .byte b :: r } = .next t ∧ t.outs = s.outs ++ [o] ∧
      (o.outcome = some .rejectedLengthMismatch ↔
        s.mode = .rlen ∧ (b.toNat < 4 ∨ s.cfg.maxLen.toNat < b.toNat)) ∧
      (o.outcome = some .rejectedBadFraming ↔
        s.mode = .accum ∧ s.cnt.toNat + 1 = s.len.toNat ∧ b ≠ 0xBB#8) ∧
      (o.outcome = some .rejectedCrcMismatch ↔
        s.mode = .accum ∧ s.cnt.toNat + 1 = s.len.toNat ∧ b = 0xBB#8 ∧
          s.frameCrc ≠ some (crc8 s.framePayload)) ∧
      (∀ p, o.outcome = some (.accepted p) ↔
        s.mode = .accum ∧ s.cnt.toNat + 1 = s.len.toNat ∧ b = 0xBB#8 ∧
          s.frameCrc = some (crc8 s.framePayload) ∧ p = s.framePayload)

/-- Raising a rejection (R173), and what LENBAD, LENBAD.HI, FIN.BADEND and FIN.BADCRC do when they answer: the outcome, the
NACK 0x15, the parser reset (`len` cleared by the spec's decision D11), nothing saved and nothing else changed. -/
def Obligations.RejectionReportsAndResets : Prop :=
  (∀ (c : Rejection) (s : State),
    raise c s = { s with mode := .seek, cnt := 0#8, len := 0#8, buf := [],
                         outs := s.outs ++ [{ tx := some 0x15#8, outcome := some c.outcome }] }) ∧
  (∀ (s t : State) (b : Byte), exec (.lenbad b) s = .next t → t = raise .lengthMismatch s) ∧
  (∀ (s t : State) (b : Byte), exec (.lenbadHi b) s = .next t → t = raise .lengthMismatch s) ∧
  (∀ (s t : State) (b : Byte), exec (.finBadend b) s = .next t → t = raise .badFraming s) ∧
  (∀ s t : State, exec .finBadcrc s = .next t → t = raise .crcMismatch s)

/-- The reply mapping (R152): ACK for an accepted frame, NACK for each of the three rejections. -/
def Obligations.ReplyMapping : Prop :=
  (∀ p, reply (.accepted p) = 0x06#8) ∧ reply .rejectedBadFraming = 0x15#8 ∧
    reply .rejectedLengthMismatch = 0x15#8 ∧ reply .rejectedCrcMismatch = 0x15#8

/-- Exactly one reply per outcome (R153): the record of a received byte carries the reply of its outcome; without an outcome
it carries no reply, but for HSK, where it is 0x55. A step without a byte sends nothing: for RESET that is the spec's
decision D9 (R201, log 11), for nothing on RX the model's reading of R150 (log 2). -/
def Obligations.ExactlyOneReplyPerOutcome : Prop :=
  (∀ (s t : State) (b : Byte) (r : List RxEvent), step { s with rx := .byte b :: r } = .next t →
    ∃ o, t.outs = s.outs ++ [o] ∧
      (∀ p, o.outcome = some p → o.tx = some (reply p)) ∧
      (o.outcome = none → o.tx = if s.mode = .seek ∧ b = 0xB1#8 then some 0x55#8 else none)) ∧
  (∀ s t : State, (s.rx = [] ∨ ∃ c r, s.rx = .reset c :: r) → step s = .next t → t.outs = s.outs)

/-- No gating (R144): no operation and no step, its decoding included, reads `negotiated`: with the flag changed
beforehand each answers the same state but for the flag. None but HSK writes it, nor does a step on any byte that is not
HSK. That the constants have a meaning as instructions, and that HANDSHAKE_REQ is HSK in SEEK and so exempt here, is the
model's choice (log 9). -/
def Obligations.NegotiatedGatesNothing : Prop :=
  (∀ (i : Instr) (s t : State) (v : Bool), exec i s = .next t →
    ∃ t', exec i { s with negotiated := v } = .next t' ∧ { t' with negotiated := t.negotiated } = t) ∧
  (∀ (s t : State) (v : Bool), step s = .next t →
    ∃ t', step { s with negotiated := v } = .next t' ∧ { t' with negotiated := t.negotiated } = t) ∧
  (∀ (i : Instr) (s t : State), exec i s = .next t → i ≠ .hsk → i ≠ .handshakeReq →
    t.negotiated = s.negotiated) ∧
  (∀ (s t : State) (b : Byte) (r : List RxEvent), step { s with rx := .byte b :: r } = .next t →
    t.negotiated = if s.mode = .seek ∧ b = 0xB1#8 then true else s.negotiated)

/-! ## The CRC codec -/

/-- CRC.INIT (R91) and CRC.BIT (R92), each on the register alone. -/
def Obligations.CrcInitAndBit : Prop :=
  ∀ s : State,
    exec .crcInit s = .next { s with crc := 0x00#8 } ∧
    exec .crcBit s = .next { s with crc := shiftStep s.crc }

/-- CRC.BYTE (R93): the byte is xored in, then eight shift steps, on the register alone; a byte equal to the register leaves
0x00. -/
def Obligations.CrcByteAbsorbs : Prop :=
  ∀ (s : State) (d : Byte),
    exec (.crcByte d) s = .next { s with crc := shiftStep^[8] (s.crc ^^^ d) } ∧
    exec (.crcByte s.crc) s = .next { s with crc := 0x00#8 }

/-- CRC.COMPUTE (R94): the register ends at `crc8` of the sequence, which is 0 for the empty sequence (R97) and grows by one
CRC.BYTE a byte, in order; nothing else changes. -/
def Obligations.CrcComputeFoldsBytes : Prop :=
  (∀ (s : State) (bs : List Byte), exec (.crcCompute bs) s = .next { s with crc := crc8 bs }) ∧
  crc8 [] = 0x00#8 ∧
  (∀ (bs : List Byte) (d : Byte), crc8 (bs ++ [d]) = shiftStep^[8] (crc8 bs ^^^ d))

/-- CRC.CHECK (R95): the result bit is the equality of all 8 bits, no field of S and no output changes, and exactly one of
the 256 received bytes passes. (That the register then holds the computed CRC is the model's choice, log 19, and is not
said here.) -/
def Obligations.CrcCheckCompares : Prop :=
  (∀ (s : State) (p : List Byte) (c : Byte),
    ∃ t, exec (.crcCheck p c) s = .next t ∧ t.crcOk = decide (crc8 p = c) ∧
      { t with crc := s.crc, crcOk := s.crcOk } = s) ∧
  (∀ p : List Byte, ∃ c : Byte, crcMatches p c = true ∧ ∀ c', crcMatches p c' = true → c' = c)

/-- Keeping the register as bytes arrive equals computing at completion (R100): CRC.INIT and then CRC.BYTE for each byte is
CRC.COMPUTE. -/
def Obligations.CrcByteByByteEqualsCompute : Prop :=
  ∀ (s : State) (bs : List Byte),
    bs.foldl (fun (r : Result) d =>
      match r with
      | .next t => exec (.crcByte d) t
      | .fault f => .fault f
      | .refused e => .refused e) (exec .crcInit s) = exec (.crcCompute bs) s

/-- Linearity (R98 item 2). -/
def Obligations.CrcIsLinear : Prop :=
  ∀ p q : List Byte, p.length = q.length → crc8 (List.zipWith (· ^^^ ·) p q) = crc8 p ^^^ crc8 q

/-- Leading zero bytes are invisible (R98 item 3). -/
def Obligations.CrcIgnoresLeadingZeros : Prop :=
  ∀ (n : Nat) (p : List Byte), crc8 (List.replicate n 0x00#8 ++ p) = crc8 p

/-- Residue (R98 item 4). -/
def Obligations.CrcOfMessageAndCrcIsZero : Prop :=
  ∀ p : List Byte, crc8 (p ++ [crc8 p]) = 0x00#8

/-- One changed byte at any place, so in particular one changed bit (R98 item 5), changes the CRC. -/
def Obligations.CrcDetectsOneChangedByte : Prop :=
  ∀ (p q : List Byte) (d d' : Byte), d ≠ d' → crc8 (p ++ [d] ++ q) ≠ crc8 (p ++ [d'] ++ q)

/-! ## The constants (log 9: what they mean as instructions is the model's choice) -/

/-- ACK, NACK and HANDSHAKE_RESP put their byte on TX (`emit_tx`, R10) and change nothing else: as instructions, the
model's choice (log 9). -/
def Obligations.SentConstantsEmitTheirByte : Prop :=
  ∀ s : State,
    exec .ack s = .next { s with outs := s.outs ++ [{ tx := some 0x06#8 }] } ∧
    exec .nack s = .next { s with outs := s.outs ++ [{ tx := some 0x15#8 }] } ∧
    exec .handshakeResp s = .next { s with outs := s.outs ++ [{ tx := some 0x55#8 }] }

/-- HEADER, END and HANDSHAKE_REQ are the receipt of their byte: in every state with the invariants each is the operation
the map selects for that byte, and completes as a step receiving it does. -/
def Obligations.ReceivedConstantsAreTheirByte : Prop :=
  ∀ s : State, s.Inv →
    (∃ j t, Selects s 0xAA#8 j ∧ exec .header s = exec j s ∧ Completes .header 0xAA#8 s t) ∧
    (∃ j t, Selects s 0xBB#8 j ∧ exec .endMarker s = exec j s ∧ Completes .endMarker 0xBB#8 s t) ∧
    (∃ j t, Selects s 0xB1#8 j ∧ exec .handshakeReq s = exec j s ∧ Completes .handshakeReq 0xB1#8 s t)

/-! ## Frames: what an instruction leaves unchanged -/

/-- Instructions that store nothing: every buffer index reads as before, and the parser's registers, MAX_LEN and RX stay;
`negotiated` stays but for HSK; the codec's registers stay but for the CRC operations. That the constants HANDSHAKE_RESP,
ACK and NACK have a meaning as instructions, and this one, is the model's choice (log 9). -/
def Obligations.NonStoringFrame : Prop :=
  ∀ (i : Instr) (s t : State), exec i s = .next t →
    i ∈ [Instr.hsk, .crcInit, .crcBit, .handshakeResp, .ack, .nack] ∨ (∃ b, i = .skip b) ∨
      (∃ d, i = .crcByte d) ∨ (∃ bs, i = .crcCompute bs) ∨ (∃ p c, i = .crcCheck p c) →
    (∀ a, t.buf.read a = s.buf.read a) ∧
    t.mode = s.mode ∧ t.cnt = s.cnt ∧ t.len = s.len ∧ t.cfg = s.cfg ∧ t.rx = s.rx ∧
    (i ≠ .hsk → t.negotiated = s.negotiated) ∧
    (i = .hsk ∨ i = .handshakeResp ∨ i = .ack ∨ i = .nack ∨ (∃ b, i = .skip b) →
      t.crc = s.crc ∧ t.crcOk = s.crcOk)

/-- LENOK and ACC store one byte, at index `cnt`: every other index reads as before. `cnt` rises by one; LENOK also writes
`mode` and `len`; nothing else but the output record changes. -/
def Obligations.AppendingFrame : Prop :=
  ∀ (b : Byte) (s t : State),
    (exec (.lenok b) s = .next t →
      (∀ a, t.buf.read a = if a = s.cnt.toNat then some b else s.buf.read a) ∧
      t.cnt.toNat = s.cnt.toNat + 1 ∧ t.mode = .accum ∧ t.len = b ∧ t.negotiated = s.negotiated ∧
      t.cfg = s.cfg ∧ t.crc = s.crc ∧ t.crcOk = s.crcOk ∧ t.rx = s.rx ∧ t.outs = s.outs ++ [Out.empty]) ∧
    (exec (.acc b) s = .next t →
      (∀ a, t.buf.read a = if a = s.cnt.toNat then some b else s.buf.read a) ∧
      t.cnt.toNat = s.cnt.toNat + 1 ∧ t.mode = s.mode ∧ t.len = s.len ∧ t.negotiated = s.negotiated ∧
      t.cfg = s.cfg ∧ t.crc = s.crc ∧ t.crcOk = s.crcOk ∧ t.rx = s.rx ∧ t.outs = s.outs ++ [Out.empty])

/-- SYNC starts a new buffer: index 0 holds 0xAA and no other index is listed; `len`, `negotiated` and the rest stay. -/
def Obligations.SyncFrame : Prop :=
  ∀ s t : State, exec .sync s = .next t →
    (∀ a, t.buf.read a = if a = 0 then some 0xAA#8 else none) ∧
    t.mode = .rlen ∧ t.cnt = 1#8 ∧ t.len = s.len ∧ t.negotiated = s.negotiated ∧
    t.cfg = s.cfg ∧ t.crc = s.crc ∧ t.crcOk = s.crcOk ∧ t.rx = s.rx

/-- The operations that end an attempt empty the buffer as a whole and reset the parser; `negotiated`, MAX_LEN, the codec's
registers and RX stay. (`len` cleared: the spec's decision D11; the codec's registers untouched: its decision D15, log 4.) -/
def Obligations.TerminalFrame : Prop :=
  ∀ (i : Instr) (s t : State), exec i s = .next t →
    i ∈ [Instr.finBadcrc, .finOk] ∨ (∃ b, i = .lenbad b ∨ i = .lenbadHi b ∨ i = .finBadend b) →
    (∀ a, t.buf.read a = none) ∧ t.mode = .seek ∧ t.cnt = 0#8 ∧ t.len = 0#8 ∧
    t.negotiated = s.negotiated ∧ t.cfg = s.cfg ∧ t.crc = s.crc ∧ t.crcOk = s.crcOk ∧ t.rx = s.rx

/-! ## Runs -/

/-- Chunk invariance (R158), of the machine: stepping through `x` on RX and then through `y`, put on RX of the state
reached, is stepping through `x ++ y` on RX from the start. What is already waiting behind a byte changes nothing of what
the byte does (R44). -/
def Obligations.ChunksDoNotMatter : Prop :=
  ∀ (x y : List RxEvent) (s : State),
    steps (x.length + y.length) { s with rx := x ++ y } =
      match steps x.length { s with rx := x } with
      | .next t => steps y.length { t with rx := y }
      | .fault f => .fault f
      | .refused e => .refused e

/-- As many steps of the machine as there are events on RX are the run of R157 over those events; what follows them on RX is
neither looked at nor changed (R44). -/
def Obligations.StepsAreTheRunOverRx : Prop :=
  ∀ (es r : List RxEvent) (s : State),
    steps es.length { s with rx := es ++ r } = run es { s with rx := r }

/-- Every well-formed frame whose payload fits is accepted from every idle state: one record a byte, all empty but the last,
which delivers the payload and sends ACK; the machine ends as it began (R60, R121). The payload may hold any bytes. -/
def Obligations.WellFormedFrameIsAccepted : Prop :=
  ∀ (s : State) (p : List Byte), s.Idle → p.length + 4 ≤ s.cfg.maxLen.toNat →
    run (received (frame p)) s =
      .next { s with outs := s.outs ++ List.replicate (p.length + 3) Out.empty ++
                [{ tx := some 0x06#8, outcome := some (.accepted p) }] }

/-- A frame with any other CRC byte is rejected with RejectedCrcMismatch and NACK (R120). -/
def Obligations.FrameWithWrongCrcIsRejected : Prop :=
  ∀ (s : State) (p : List Byte) (c : Byte), s.Idle → p.length + 4 ≤ s.cfg.maxLen.toNat → c ≠ crc8 p →
    run (received (frameWith p c 0xBB#8)) s =
      .next { s with outs := s.outs ++ List.replicate (p.length + 3) Out.empty ++
                [{ tx := some 0x15#8, outcome := some .rejectedCrcMismatch }] }

/-- A frame with any other END byte is rejected with RejectedBadFraming and NACK, whatever its CRC byte (R119, R178). -/
def Obligations.FrameWithWrongEndIsRejected : Prop :=
  ∀ (s : State) (p : List Byte) (c e : Byte), s.Idle → p.length + 4 ≤ s.cfg.maxLen.toNat → e ≠ 0xBB#8 →
    run (received (frameWith p c e)) s =
      .next { s with outs := s.outs ++ List.replicate (p.length + 3) Out.empty ++
                [{ tx := some 0x15#8, outcome := some .rejectedBadFraming }] }

/-- Frames one after the other, nothing between them, are each accepted and acknowledged, in order (R126, R53). -/
def Obligations.BackToBackFramesAreAccepted : Prop :=
  ∀ (s : State) (ps : List (List Byte)), s.Idle → (∀ p ∈ ps, p.length + 4 ≤ s.cfg.maxLen.toNat) →
    ∃ os, run (received (ps.flatMap frame)) s = .next { s with outs := s.outs ++ os } ∧
      txOf os = List.replicate ps.length 0x06#8 ∧
      evOf os = ps.map fun p => EvItem.outcome (.accepted p)

/-- Noise before traffic changes nothing but the number of empty records (R111): the rest of the input does what it would
have done without it. -/
def Obligations.NoiseBeforeTrafficIsInvisible : Prop :=
  ∀ (s : State) (n x : List Byte), s.Idle → (∀ b ∈ n, b ≠ 0xAA#8 ∧ b ≠ 0xB1#8) →
    run (received (n ++ x)) s =
      run (received x) { s with outs := s.outs ++ List.replicate n.length Out.empty }

/-- Every handshake request in SEEK is answered, the first and every later one alike (the spec's decision D13). -/
def Obligations.EveryHandshakeIsAnswered : Prop :=
  ∀ (s : State) (n : Nat), s.Idle → 1 ≤ n →
    run (received (List.replicate n 0xB1#8)) s =
      .next { s with negotiated := true,
                     outs := s.outs ++ List.replicate n { tx := some 0x55#8, hs := true } }

/-- Fewer bytes than the declared length still asks for are stored without a reply, whatever they are: the attempt waits
(R127, R206; no timeout, the spec's decision D4). -/
def Obligations.StalledAttemptStaysSilent : Prop :=
  ∀ (s : State) (bs : List Byte), s.Inv → s.mode = .accum → s.cnt.toNat + bs.length < s.len.toNat →
    ∃ t, run (received bs) s = .next t ∧ t.Inv ∧ t.mode = .accum ∧ t.len = s.len ∧
      t.cnt.toNat = s.cnt.toNat + bs.length ∧ t.bytes = s.bytes ++ bs ∧
      t.outs = s.outs ++ List.replicate bs.length Out.empty ∧ t.negotiated = s.negotiated

/-- After SYNC the parser is back in SEEK after at least one and at most MAX_LEN - 1 further bytes, whatever they are, and
has then sent exactly one reply, with the last of them (R205). -/
def Obligations.FrameAttemptIsBounded : Prop :=
  ∀ (s : State) (bs : List Byte), s.Inv → s.mode = .rlen → bs.length + 1 = s.cfg.maxLen.toNat →
    ∃ k t o, 1 ≤ k ∧ k + 1 ≤ s.cfg.maxLen.toNat ∧
      run (received (bs.take k)) s = .next t ∧ t.Idle ∧
      t.outs = s.outs ++ List.replicate (k - 1) Out.empty ++ [o] ∧ o.tx ≠ none ∧ o.outcome ≠ none

/-- Over any bytes, from any state with the invariants: one record a byte; the replies are as many as the terminal events and
answered handshakes together, and no more than the bytes received (R154). -/
def Obligations.RepliesAreCounted : Prop :=
  ∀ (s : State) (bs : List Byte), s.Inv →
    ∃ t os, run (received bs) s = .next t ∧ t.outs = s.outs ++ os ∧ os.length = bs.length ∧
      (txOf os).length = (outcomesOf os).length + (os.filter Out.hs).length ∧
      (txOf os).length ≤ bs.length

/-- TX carries only 0x55, 0x06 and 0x15, over any events and from any state (R45, R64). -/
def Obligations.RepliesAreTheThreeBytes : Prop :=
  ∀ (es : List RxEvent) (s t : State), run es s = .next t →
    ∃ os, t.outs = s.outs ++ os ∧ ∀ v ∈ txOf os, v = 0x55#8 ∨ v = 0x06#8 ∨ v = 0x15#8

/-- `negotiated` is true after a run of bytes exactly if it was before or a handshake was answered in the run (R25, R27
item 5). -/
def Obligations.NegotiatedRecordsHandshakes : Prop :=
  ∀ (bs : List Byte) (s t : State), run (received bs) s = .next t →
    ∃ os, t.outs = s.outs ++ os ∧ t.negotiated = (s.negotiated || os.any Out.hs)
end

