-- ==== Sys2Proof/Laws/Decode.lean ====
section
/-!
SUPPORT. The dispatch word's fields, and the operation map by mode.
-/

namespace Sys2Proof

/-- A mode's code reads back as the mode. -/
@[simp] theorem Mode.ofCode_code (m : Mode) : Mode.ofCode m.code = some m := by cases m <;> rfl

/-- Only a mode's own code reads as that mode; the encoding 3 reads as none (R78). -/
theorem Mode.code_of_ofCode {c : BitVec 2} {m : Mode} (h : Mode.ofCode c = some m) : m.code = c := by
  unfold Mode.ofCode at h
  split at h
  · cases h; subst_vars; rfl
  · split at h
    · cases h; subst_vars; rfl
    · split at h
      · cases h; subst_vars; rfl
      · cases h

/-- The mode field of a dispatch word. -/
@[simp] theorem wordMode_dispatchWord (m : Mode) (b : Byte) : wordMode (dispatchWord m b) = m.code := by
  cases m <;> revert b <;> decide

/-- The byte field of a dispatch word. -/
@[simp] theorem wordByte_dispatchWord (m : Mode) (b : Byte) : wordByte (dispatchWord m b) = b := by
  cases m <;> revert b <;> decide

/-- The two fields are all of the word. -/
theorem wordMode_append_wordByte (w : BitVec 10) : wordMode w ++ wordByte w = w := by
  apply BitVec.eq_of_getLsbD_eq
  intro i hi
  simp only [BitVec.getLsbD_append, wordMode, wordByte, BitVec.getLsbD_extractLsb']
  split
  · rename_i h
    have h8 : i < 8 := by simpa using h
    simp [h8]
  · rename_i h
    have h8 : 8 ≤ i := by simpa using h
    have h2 : i - 8 < 2 := by omega
    have e : 8 + (i - 8) = i := by omega
    simp [h2, e]

/-- A word is its two fields put together. -/
theorem dispatchWord_of_fields {w : BitVec 10} {m : Mode} (h : wordMode w = m.code) :
    dispatchWord m (wordByte w) = w := by
  unfold dispatchWord
  rw [← h]
  exact wordMode_append_wordByte w

@[simp] theorem decode_seek (x : DecodeCtx) (b : Byte) : decode x (dispatchWord .seek b) = .ok (decodeSeek b) := by
  simp [decode]

@[simp] theorem decode_rlen (x : DecodeCtx) (b : Byte) :
    decode x (dispatchWord .rlen b) = .ok (decodeLength x.cfg b) := by simp [decode]

@[simp] theorem decode_accum (x : DecodeCtx) (b : Byte) : decode x (dispatchWord .accum b) = decodeAccum x b := by
  simp [decode]

end Sys2Proof
end

