-- ==== Sys2Proof/Laws/Memory.lean ====
section
/-!
SUPPORT. The buffer's laws: what a read sees after a write, that a write keeps the canonical form, and how a buffer that
holds exactly the indices `0 .. n-1` (R20, R27) reads and grows.
-/

namespace Sys2Proof.Machine

/-- The empty buffer has the canonical form; `parser_reset()` and SYNC empty the buffer as a whole (R42). -/
theorem nil_wf : Memory.wf [] := List.Pairwise.nil

@[simp] theorem Memory.read_nil (a : Nat) : Memory.read [] a = none := rfl

/-- A read at the index just written gives the byte written. -/
@[simp] theorem Memory.read_write_same (m : Memory) (a : Nat) (v : Byte) : (m.write a v).read a = some v := by
  induction m with
  | nil => simp [Memory.write, Memory.read]
  | cons c m ih =>
    obtain ⟨a', v'⟩ := c
    simp only [Memory.write]
    split
    · simp [Memory.read]
    · split
      · simp [Memory.read]
      · have : a' ≠ a := by omega
        simp [Memory.read, this, ih]

/-- A read at any other index is as before the write. -/
theorem Memory.read_write_other (m : Memory) {a b : Nat} (v : Byte) (h : b ≠ a) :
    (m.write a v).read b = m.read b := by
  induction m with
  | nil => simp [Memory.write, Memory.read, Ne.symm h]
  | cons c m ih =>
    obtain ⟨a', v'⟩ := c
    simp only [Memory.write]
    split
    · simp [Memory.read, Ne.symm h]
    · split
      · subst_vars
        simp [Memory.read, Ne.symm h]
      · simp [Memory.read, ih]

/-- The indices listed after a write: the written one and those listed before. -/
theorem Memory.mem_keys_write (m : Memory) (a b : Nat) (v : Byte) :
    b ∈ (m.write a v).map Prod.fst ↔ b = a ∨ b ∈ m.map Prod.fst := by
  induction m with
  | nil => simp [Memory.write]
  | cons c m ih =>
    obtain ⟨a', v'⟩ := c
    simp only [Memory.write]
    split
    · simp
    · split
      · subst_vars; simp
      · simp only [List.map_cons, List.mem_cons, ih]; tauto

/-- A write keeps the canonical form. -/
theorem Memory.write_wf (m : Memory) (a : Nat) (v : Byte) (h : m.wf) : (m.write a v).wf := by
  induction m with
  | nil => simp [Memory.write, Memory.wf]
  | cons c m ih =>
    obtain ⟨a', v'⟩ := c
    simp only [Memory.wf, List.map_cons, List.pairwise_cons] at h ⊢
    simp only [Memory.write]
    split
    · rename_i hlt
      simp only [List.map_cons, List.pairwise_cons, List.mem_cons]
      refine ⟨?_, h⟩
      rintro b (rfl | hb)
      · exact hlt
      · exact hlt.trans (h.1 b hb)
    · split
      · subst_vars; simpa using h
      · simp only [List.map_cons, List.pairwise_cons]
        refine ⟨fun b hb => ?_, ih h.2⟩
        rcases (Memory.mem_keys_write m a b v).1 hb with rfl | hb
        · omega
        · exact h.1 b hb

/-- Every operation on the buffer that answers keeps the canonical form (`append`). -/
theorem append_keeps_wf {v : Byte} {s t : State} (h : append v s = .ok t) (hs : s.buf.wf) : t.buf.wf := by
  unfold append at h
  split at h
  · cases h; exact Memory.write_wf _ _ _ hs
  · cases h

/-- A buffer that holds exactly the indices `0 .. n-1` has the canonical form. -/
theorem wf_of_keys_range {m : Memory} {n : Nat} (h : m.map Prod.fst = List.range n) : m.wf := by
  rw [Memory.wf, h]; exact List.pairwise_lt_range

/-- A write above every listed index is an append at the end of the list. -/
theorem Memory.write_eq_append {m : Memory} {a : Nat} (v : Byte) (h : ∀ b ∈ m.map Prod.fst, b < a) :
    m.write a v = m ++ [(a, v)] := by
  induction m with
  | nil => rfl
  | cons c m ih =>
    obtain ⟨a', v'⟩ := c
    have h1 : a' < a := h a' (by simp)
    have h2 : ¬ a < a' := by omega
    have h3 : a ≠ a' := by omega
    simp only [Memory.write, if_neg h2, if_neg h3, List.cons_append]
    rw [ih fun b hb => h b (by simp only [List.map_cons, List.mem_cons]; exact Or.inr hb)]

/-- Appending at index `n` to a buffer that holds exactly the indices `0 .. n-1`. -/
theorem Memory.write_range_end {m : Memory} {n : Nat} (v : Byte) (h : m.map Prod.fst = List.range n) :
    m.write n v = m ++ [(n, v)] :=
  Memory.write_eq_append v fun b hb => by simpa [h] using hb

/-- A read in a buffer whose indices start at `k` and rise by one is the list's element. -/
theorem Memory.read_range' {m : Memory} {k n : Nat} (h : m.map Prod.fst = List.range' k n) (i : Nat) :
    m.read (k + i) = (m.map Prod.snd)[i]? := by
  induction m generalizing k n i with
  | nil => simp
  | cons c m ih =>
    obtain ⟨a', v'⟩ := c
    cases n with
    | zero => simp at h
    | succ n =>
      simp only [List.map_cons, List.range'_succ, List.cons.injEq] at h
      obtain ⟨rfl, h⟩ := h
      cases i with
      | zero => simp [Memory.read]
      | succ i =>
        have e : a' + (i + 1) = a' + 1 + i := by omega
        simp only [Memory.read, List.map_cons, List.getElem?_cons_succ]
        rw [if_neg (by omega), e]
        exact ih h i

/-- A read in a buffer that holds exactly the indices `0 .. n-1` is the element of its byte sequence. -/
theorem Memory.read_of_range {m : Memory} {n : Nat} (h : m.map Prod.fst = List.range n) (i : Nat) :
    m.read i = (m.map Prod.snd)[i]? := by
  have := Memory.read_range' (k := 0) (by rw [h, List.range_eq_range']) i
  simpa using this

/-- A range read in such a buffer is the slice of its byte sequence (R41). -/
theorem Memory.readRange_of_range {m : Memory} {n : Nat} (h : m.map Prod.fst = List.range n) (i k : Nat)
    (hk : i + k ≤ n) : m.readRange i k = some (((m.map Prod.snd).drop i).take k) := by
  have hlen : (m.map Prod.snd).length = n := by
    have := congrArg List.length h; simpa using this
  induction k generalizing i with
  | zero => simp [Memory.readRange]
  | succ k ih =>
    have hi : i < (m.map Prod.snd).length := by omega
    rw [Memory.readRange, Memory.read_of_range h, List.getElem?_eq_getElem hi, ih (i + 1) (by omega)]
    rw [List.drop_eq_getElem_cons hi, List.take_succ_cons]

end Sys2Proof.Machine
end

