-- ==== Sys2Proof/Laws/State.lean ====
section
/-!
SUPPORT. One lemma per field per update: what each named update of the state leaves in each field.
-/

namespace Sys2Proof.Machine

section Updates
variable (s : State)

@[simp] theorem setNegotiated_cfg : (setNegotiated s).cfg = s.cfg := rfl
@[simp] theorem setNegotiated_mode : (setNegotiated s).mode = s.mode := rfl
@[simp] theorem setNegotiated_cnt : (setNegotiated s).cnt = s.cnt := rfl
@[simp] theorem setNegotiated_buf : (setNegotiated s).buf = s.buf := rfl
@[simp] theorem setNegotiated_len : (setNegotiated s).len = s.len := rfl
@[simp] theorem setNegotiated_negotiated : (setNegotiated s).negotiated = true := rfl
@[simp] theorem setNegotiated_crc : (setNegotiated s).crc = s.crc := rfl
@[simp] theorem setNegotiated_crcOk : (setNegotiated s).crcOk = s.crcOk := rfl
@[simp] theorem setNegotiated_rx : (setNegotiated s).rx = s.rx := rfl
@[simp] theorem setNegotiated_outs : (setNegotiated s).outs = s.outs := rfl

@[simp] theorem setCrc_cfg (v : Byte) : (setCrc v s).cfg = s.cfg := rfl
@[simp] theorem setCrc_mode (v : Byte) : (setCrc v s).mode = s.mode := rfl
@[simp] theorem setCrc_cnt (v : Byte) : (setCrc v s).cnt = s.cnt := rfl
@[simp] theorem setCrc_buf (v : Byte) : (setCrc v s).buf = s.buf := rfl
@[simp] theorem setCrc_len (v : Byte) : (setCrc v s).len = s.len := rfl
@[simp] theorem setCrc_negotiated (v : Byte) : (setCrc v s).negotiated = s.negotiated := rfl
@[simp] theorem setCrc_crc (v : Byte) : (setCrc v s).crc = v := rfl
@[simp] theorem setCrc_crcOk (v : Byte) : (setCrc v s).crcOk = s.crcOk := rfl
@[simp] theorem setCrc_rx (v : Byte) : (setCrc v s).rx = s.rx := rfl
@[simp] theorem setCrc_outs (v : Byte) : (setCrc v s).outs = s.outs := rfl

@[simp] theorem setCrcOk_cfg (ok : Bool) : (setCrcOk ok s).cfg = s.cfg := rfl
@[simp] theorem setCrcOk_mode (ok : Bool) : (setCrcOk ok s).mode = s.mode := rfl
@[simp] theorem setCrcOk_cnt (ok : Bool) : (setCrcOk ok s).cnt = s.cnt := rfl
@[simp] theorem setCrcOk_buf (ok : Bool) : (setCrcOk ok s).buf = s.buf := rfl
@[simp] theorem setCrcOk_len (ok : Bool) : (setCrcOk ok s).len = s.len := rfl
@[simp] theorem setCrcOk_negotiated (ok : Bool) : (setCrcOk ok s).negotiated = s.negotiated := rfl
@[simp] theorem setCrcOk_crc (ok : Bool) : (setCrcOk ok s).crc = s.crc := rfl
@[simp] theorem setCrcOk_crcOk (ok : Bool) : (setCrcOk ok s).crcOk = ok := rfl
@[simp] theorem setCrcOk_rx (ok : Bool) : (setCrcOk ok s).rx = s.rx := rfl
@[simp] theorem setCrcOk_outs (ok : Bool) : (setCrcOk ok s).outs = s.outs := rfl

@[simp] theorem clearBuffer_cfg : (clearBuffer s).cfg = s.cfg := rfl
@[simp] theorem clearBuffer_mode : (clearBuffer s).mode = s.mode := rfl
@[simp] theorem clearBuffer_cnt : (clearBuffer s).cnt = 0#8 := rfl
@[simp] theorem clearBuffer_buf : (clearBuffer s).buf = [] := rfl
@[simp] theorem clearBuffer_len : (clearBuffer s).len = s.len := rfl
@[simp] theorem clearBuffer_negotiated : (clearBuffer s).negotiated = s.negotiated := rfl
@[simp] theorem clearBuffer_crc : (clearBuffer s).crc = s.crc := rfl
@[simp] theorem clearBuffer_crcOk : (clearBuffer s).crcOk = s.crcOk := rfl
@[simp] theorem clearBuffer_rx : (clearBuffer s).rx = s.rx := rfl
@[simp] theorem clearBuffer_outs : (clearBuffer s).outs = s.outs := rfl

@[simp] theorem parserReset_cfg : (parserReset s).cfg = s.cfg := rfl
@[simp] theorem parserReset_mode : (parserReset s).mode = .seek := rfl
@[simp] theorem parserReset_cnt : (parserReset s).cnt = 0#8 := rfl
@[simp] theorem parserReset_buf : (parserReset s).buf = [] := rfl
@[simp] theorem parserReset_len : (parserReset s).len = 0#8 := rfl
@[simp] theorem parserReset_negotiated : (parserReset s).negotiated = s.negotiated := rfl
@[simp] theorem parserReset_crc : (parserReset s).crc = s.crc := rfl
@[simp] theorem parserReset_crcOk : (parserReset s).crcOk = s.crcOk := rfl
@[simp] theorem parserReset_rx : (parserReset s).rx = s.rx := rfl
@[simp] theorem parserReset_outs : (parserReset s).outs = s.outs := rfl

@[simp] theorem emit_cfg (o : Out) : (emit o s).cfg = s.cfg := rfl
@[simp] theorem emit_mode (o : Out) : (emit o s).mode = s.mode := rfl
@[simp] theorem emit_cnt (o : Out) : (emit o s).cnt = s.cnt := rfl
@[simp] theorem emit_buf (o : Out) : (emit o s).buf = s.buf := rfl
@[simp] theorem emit_len (o : Out) : (emit o s).len = s.len := rfl
@[simp] theorem emit_negotiated (o : Out) : (emit o s).negotiated = s.negotiated := rfl
@[simp] theorem emit_crc (o : Out) : (emit o s).crc = s.crc := rfl
@[simp] theorem emit_crcOk (o : Out) : (emit o s).crcOk = s.crcOk := rfl
@[simp] theorem emit_rx (o : Out) : (emit o s).rx = s.rx := rfl
@[simp] theorem emit_outs (o : Out) : (emit o s).outs = s.outs ++ [o] := rfl

@[simp] theorem emitTx_cfg (v : Byte) : (emitTx v s).cfg = s.cfg := rfl
@[simp] theorem emitTx_mode (v : Byte) : (emitTx v s).mode = s.mode := rfl
@[simp] theorem emitTx_cnt (v : Byte) : (emitTx v s).cnt = s.cnt := rfl
@[simp] theorem emitTx_buf (v : Byte) : (emitTx v s).buf = s.buf := rfl
@[simp] theorem emitTx_len (v : Byte) : (emitTx v s).len = s.len := rfl
@[simp] theorem emitTx_negotiated (v : Byte) : (emitTx v s).negotiated = s.negotiated := rfl
@[simp] theorem emitTx_crc (v : Byte) : (emitTx v s).crc = s.crc := rfl
@[simp] theorem emitTx_crcOk (v : Byte) : (emitTx v s).crcOk = s.crcOk := rfl
@[simp] theorem emitTx_rx (v : Byte) : (emitTx v s).rx = s.rx := rfl
@[simp] theorem emitTx_outs (v : Byte) : (emitTx v s).outs = s.outs ++ [{ tx := some v }] := rfl

@[simp] theorem raise_cfg (r : Rejection) : (raise r s).cfg = s.cfg := rfl
@[simp] theorem raise_mode (r : Rejection) : (raise r s).mode = .seek := rfl
@[simp] theorem raise_cnt (r : Rejection) : (raise r s).cnt = 0#8 := rfl
@[simp] theorem raise_buf (r : Rejection) : (raise r s).buf = [] := rfl
@[simp] theorem raise_len (r : Rejection) : (raise r s).len = 0#8 := rfl
@[simp] theorem raise_negotiated (r : Rejection) : (raise r s).negotiated = s.negotiated := rfl
@[simp] theorem raise_crc (r : Rejection) : (raise r s).crc = s.crc := rfl
@[simp] theorem raise_crcOk (r : Rejection) : (raise r s).crcOk = s.crcOk := rfl
@[simp] theorem raise_rx (r : Rejection) : (raise r s).rx = s.rx := rfl
@[simp] theorem raise_outs (r : Rejection) : (raise r s).outs = s.outs ++ [{ tx := some 0x15#8, outcome := some r.outcome }] := rfl

@[simp] theorem accept_cfg (p : List Byte) : (accept p s).cfg = s.cfg := rfl
@[simp] theorem accept_mode (p : List Byte) : (accept p s).mode = .seek := rfl
@[simp] theorem accept_cnt (p : List Byte) : (accept p s).cnt = 0#8 := rfl
@[simp] theorem accept_buf (p : List Byte) : (accept p s).buf = [] := rfl
@[simp] theorem accept_len (p : List Byte) : (accept p s).len = 0#8 := rfl
@[simp] theorem accept_negotiated (p : List Byte) : (accept p s).negotiated = s.negotiated := rfl
@[simp] theorem accept_crc (p : List Byte) : (accept p s).crc = s.crc := rfl
@[simp] theorem accept_crcOk (p : List Byte) : (accept p s).crcOk = s.crcOk := rfl
@[simp] theorem accept_rx (p : List Byte) : (accept p s).rx = s.rx := rfl
@[simp] theorem accept_outs (p : List Byte) : (accept p s).outs = s.outs ++ [{ tx := some Wire.ack, outcome := some (.accepted p) }] := rfl

@[simp] theorem resetEvent_cfg : (resetEvent s).cfg = s.cfg := rfl
@[simp] theorem resetEvent_mode : (resetEvent s).mode = .seek := rfl
@[simp] theorem resetEvent_cnt : (resetEvent s).cnt = 0#8 := rfl
@[simp] theorem resetEvent_buf : (resetEvent s).buf = [] := rfl
@[simp] theorem resetEvent_len : (resetEvent s).len = 0#8 := rfl
@[simp] theorem resetEvent_negotiated : (resetEvent s).negotiated = false := rfl
@[simp] theorem resetEvent_crc : (resetEvent s).crc = 0#8 := rfl
@[simp] theorem resetEvent_crcOk : (resetEvent s).crcOk = false := rfl
@[simp] theorem resetEvent_rx : (resetEvent s).rx = s.rx := rfl
@[simp] theorem resetEvent_outs : (resetEvent s).outs = s.outs := rfl

end Updates

end Sys2Proof.Machine
end

