-- ==== Sys2Proof/Laws/Ops.lean ====
section
/-!
SUPPORT. For each shared operation, one lemma that says everything it can do; proofs cite these and do not unfold the
operation.
-/

namespace Sys2Proof.Machine

/-! ## Results -/

theorem next_eq_next {s t : State} : (Host.Outcome.next s : Result) = .next t ↔ t = s :=
  ⟨fun h => by cases h; rfl, fun h => by rw [h]⟩

theorem whenSelected_next {p : Prop} [Decidable p] {k : Result} {t : State} :
    whenSelected p k = .next t ↔ p ∧ k = .next t := by
  unfold whenSelected; split <;> simp_all

theorem whenSelected_of {p : Prop} [Decidable p] (h : p) (k : Result) : whenSelected p k = k := if_pos h

theorem whenSelected_of_not {p : Prop} [Decidable p] (h : ¬ p) (k : Result) :
    whenSelected p k = .refused .notSelected := if_neg h

theorem orFault_next {α : Type} {x : Except Fault α} {k : α → Result} {t : State} :
    orFault x k = .next t ↔ ∃ a, x = .ok a ∧ k a = .next t := by
  cases x <;> simp [orFault]

@[simp] theorem orFault_ok {α : Type} (a : α) (k : α → Result) : orFault (.ok a) k = k a := rfl

/-! ## The buffer operations -/

/-- `append` answers within the capacity and there alone, with the byte at index `cnt` (R42). -/
theorem append_ok {v : Byte} {s t : State} :
    append v s = .ok t ↔
      s.cnt.toNat < s.cfg.maxLen.toNat ∧
        t = { s with buf := s.buf.write s.cnt.toNat v, cnt := s.cnt + 1#8 } := by
  unfold append
  split
  · rename_i h; simp [h, eq_comm]
  · rename_i h; simp [h]

/-- The fill count after an append: one more, with no wrap-around (R22). -/
theorem append_cnt {v : Byte} {s t : State} (h : append v s = .ok t) : t.cnt.toNat = s.cnt.toNat + 1 := by
  obtain ⟨hc, rfl⟩ := append_ok.1 h
  have := s.cfg.maxLen.isLt
  have h1 : (1#8).toNat = 1 := rfl
  simp only [BitVec.toNat_add, h1]
  omega

/-- What an append leaves in the buffer: the byte at `cnt`, every other index as before. -/
theorem append_read {v : Byte} {s t : State} (h : append v s = .ok t) (a : Nat) :
    t.buf.read a = if a = s.cnt.toNat then some v else s.buf.read a := by
  obtain ⟨-, rfl⟩ := append_ok.1 h
  split
  · subst_vars; simp
  · exact Memory.read_write_other _ _ ‹_›

/-- `MemRead(i, n)` answers only within `cnt` (R41). -/
theorem memRead_ok {s : State} {i n : Nat} {vs : List Byte} :
    memRead s i n = .ok vs ↔ i + n ≤ s.cnt.toNat ∧ s.buf.readRange i n = some vs := by
  unfold memRead
  split
  · rename_i h
    cases s.buf.readRange i n <;> simp [h]
  · rename_i h; simp [h]

/-- MemRead on a buffer that holds exactly the indices `0 .. cnt-1` is the slice (R41). -/
theorem memRead_of_range {s : State} (h : s.buf.map Prod.fst = List.range s.cnt.toNat) {i n : Nat}
    (hn : i + n ≤ s.cnt.toNat) : memRead s i n = .ok ((s.bytes.drop i).take n) :=
  memRead_ok.2 ⟨hn, Memory.readRange_of_range h i n hn⟩

/-- `buf[i]` on such a buffer. -/
theorem byteAt_of_range {s : State} (h : s.buf.map Prod.fst = List.range s.cnt.toNat) {i : Nat}
    (hi : i < s.cnt.toNat) {v : Byte} (hv : s.bytes[i]? = some v) : byteAt s i = .ok v := by
  have hl : i < s.bytes.length := by
    have := congrArg List.length h
    simp only [State.bytes, List.length_map, List.length_range] at *; omega
  rw [List.getElem?_eq_getElem hl] at hv
  unfold byteAt
  rw [memRead_of_range h (by omega), List.drop_eq_getElem_cons hl]
  simp_all

/-! ## Taking a rejection, accepting, RESET -/

/-- `raise` in full (R173): the outcome, the NACK, the parser reset, nothing saved. -/
theorem raise_eq (r : Rejection) (s : State) :
    raise r s = { s with mode := .seek, cnt := 0#8, buf := [], len := 0#8,
                         outs := s.outs ++ [{ tx := some 0x15#8, outcome := some r.outcome }] } := rfl

/-- `accept` in full (R121). -/
theorem accept_eq (p : List Byte) (s : State) :
    accept p s = { s with mode := .seek, cnt := 0#8, buf := [], len := 0#8,
                          outs := s.outs ++ [{ tx := some 0x06#8, outcome := some (.accepted p) }] } := rfl

/-- The NACK that `raise` sends is the reply of the outcome it reports (R152). -/
theorem reply_outcome (r : Rejection) : reply r.outcome = 0x15#8 := by cases r <;> rfl

/-- RESET in full (R201). -/
theorem resetEvent_eq (s : State) :
    resetEvent s = { s with mode := .seek, cnt := 0#8, buf := [], len := 0#8, negotiated := false,
                            crc := 0#8, crcOk := false } := rfl

/-! ## The position and the completion -/

theorem position_before {s : State} : position s = .before ↔ s.cnt.toNat + 1 < s.len.toNat := by
  unfold position
  split
  · simp_all
  · split <;> simp_all

theorem position_last {s : State} : position s = .last ↔ s.cnt.toNat + 1 = s.len.toNat := by
  unfold position
  split
  · rename_i h; simp; omega
  · split <;> simp_all

theorem position_past {s : State} : position s = .past ↔ s.len.toNat < s.cnt.toNat + 1 := by
  unfold position
  split
  · rename_i h; simp; omega
  · split
    · rename_i h; simp; omega
    · simp; omega

/-- The completion of a frame whose buffer holds exactly the indices `0 .. cnt-1` (R20, R117): the received byte is the
end candidate, the last buffered byte the CRC, and the payload the slice between. -/
theorem completion_of_range {s : State} {b c : Byte} (h : s.buf.map Prod.fst = List.range s.cnt.toNat)
    (hl : 4 ≤ s.len.toNat) (hp : s.cnt.toNat + 1 = s.len.toNat) (hm : s.len.toNat ≤ s.cfg.maxLen.toNat)
    (hc : s.bytes[s.len.toNat - 2]? = some c) :
    completion b s =
      .ok { endByte := b, crcByte := c, payload := (s.bytes.drop 2).take (s.len.toNat - 4) } := by
  have hlen : s.bytes.length = s.cnt.toNat := by
    have := congrArg List.length h
    simpa [State.bytes] using this
  obtain ⟨t, ht⟩ : ∃ t, append b s = .ok t := ⟨_, append_ok.2 ⟨by omega, rfl⟩⟩
  have hcnt := append_cnt ht
  obtain ⟨-, rfl⟩ := append_ok.1 ht
  have hw := Memory.write_range_end b h
  have hr : (s.buf.write s.cnt.toNat b).map Prod.fst = List.range (s.cnt.toNat + 1) := by
    rw [hw, List.map_append, h, List.range_succ]; rfl
  have hb : (s.buf.write s.cnt.toNat b).map Prod.snd = s.bytes ++ [b] := by
    rw [hw, List.map_append]; rfl
  set full : State := { s with buf := s.buf.write s.cnt.toNat b, cnt := s.cnt + 1#8 } with hfull
  have hrange : full.buf.map Prod.fst = List.range full.cnt.toNat := by rw [hcnt]; exact hr
  have hbytes : full.bytes = s.bytes ++ [b] := hb
  have he : byteAt full (s.len.toNat - 1) = .ok b := by
    apply byteAt_of_range hrange (by omega)
    rw [hbytes, List.getElem?_append_right (by omega)]
    have : s.len.toNat - 1 - s.bytes.length = 0 := by omega
    rw [this]; rfl
  have hcb : byteAt full (s.len.toNat - 2) = .ok c := by
    apply byteAt_of_range hrange (by omega)
    rw [hbytes, List.getElem?_append_left (by omega)]
    exact hc
  have hpl : memRead full 2 (s.len.toNat - 4) = .ok ((s.bytes.drop 2).take (s.len.toNat - 4)) := by
    rw [memRead_of_range hrange (by omega), hbytes, List.drop_append_of_le_length (by omega),
      List.take_append_of_le_length (by simp; omega)]
  unfold completion
  rw [if_neg (by omega), ht]
  simp only [he, hcb, hpl]

/-! ## The codec's register -/

/-- CRC.BIT `n` times changes the register alone, by `n` shift steps (R92). -/
theorem crcBits_eq (n : Nat) (s : State) : crcBits n s = setCrc (crcShifts n s.crc) s := by
  induction n generalizing s with
  | zero => rfl
  | succ n ih => rw [crcBits, ih]; rfl

/-- CRC.BYTE changes the register alone, by one absorption (R93). -/
theorem crcTake_eq (s : State) (d : Byte) : crcTake s d = setCrc (crcAbsorb s.crc d) s := by
  rw [crcTake, crcBits_eq]; rfl

end Sys2Proof.Machine
end

