-- ==== Sys2Proof/Laws/Exec.lean ====
section
/-!
SUPPORT. For each byte-driven operation, and for the step, one lemma that says when it answers and with what.
-/

namespace Sys2Proof.Machine

theorem execSkip_next {b : Byte} {s t : State} :
    execSkip b s = .next t ↔
      (s.mode = .seek ∧ b ≠ Wire.header ∧ b ≠ Wire.handshakeReq) ∧ t = emit Out.empty s := by
  rw [execSkip, whenSelected_next, next_eq_next]

theorem execSync_next {s t : State} :
    execSync s = .next t ↔
      (s.mode = .seek ∧ 0 < s.cfg.maxLen.toNat) ∧
        t = emit Out.empty { s with mode := .rlen, cnt := 1#8, buf := [(0, Wire.header)] } := by
  simp only [execSync, whenSelected_next, orFault_next, append_ok]
  constructor
  · rintro ⟨hm, u, ⟨hc, rfl⟩, ht⟩
    cases ht
    exact ⟨⟨hm, hc⟩, rfl⟩
  · rintro ⟨⟨hm, hc⟩, rfl⟩
    exact ⟨hm, _, ⟨hc, rfl⟩, rfl⟩

theorem execLenok_next {b : Byte} {s t : State} :
    execLenok b s = .next t ↔
      (s.mode = .rlen ∧ s.cfg.LenValid b ∧ s.cnt.toNat < s.cfg.maxLen.toNat) ∧
        t = emit Out.empty { s with mode := .accum, len := b, buf := s.buf.write s.cnt.toNat b, cnt := s.cnt + 1#8 } := by
  simp only [execLenok, whenSelected_next, orFault_next, append_ok]
  constructor
  · rintro ⟨⟨hm, hv⟩, u, ⟨hc, rfl⟩, ht⟩
    cases ht
    exact ⟨⟨hm, hv, hc⟩, rfl⟩
  · rintro ⟨⟨hm, hv, hc⟩, rfl⟩
    exact ⟨⟨hm, hv⟩, _, ⟨hc, rfl⟩, rfl⟩

theorem execLenbad_next {b : Byte} {s t : State} :
    execLenbad b s = .next t ↔ (s.mode = .rlen ∧ b.toNat < 4) ∧ t = raise .lengthMismatch s := by
  rw [execLenbad, whenSelected_next, next_eq_next]

theorem execLenbadHi_next {b : Byte} {s t : State} :
    execLenbadHi b s = .next t ↔
      (s.mode = .rlen ∧ s.cfg.maxLen.toNat < b.toNat) ∧ t = raise .lengthMismatch s := by
  rw [execLenbadHi, whenSelected_next, next_eq_next]

theorem execAcc_next {b : Byte} {s t : State} :
    execAcc b s = .next t ↔
      (s.mode = .accum ∧ position s = .before ∧ s.cnt.toNat < s.cfg.maxLen.toNat) ∧
        t = emit Out.empty { s with buf := s.buf.write s.cnt.toNat b, cnt := s.cnt + 1#8 } := by
  simp only [execAcc, whenSelected_next, orFault_next, append_ok]
  constructor
  · rintro ⟨⟨hm, hv⟩, u, ⟨hc, rfl⟩, ht⟩
    cases ht
    exact ⟨⟨hm, hv, hc⟩, rfl⟩
  · rintro ⟨⟨hm, hv, hc⟩, rfl⟩
    exact ⟨⟨hm, hv⟩, _, ⟨hc, rfl⟩, rfl⟩

theorem execFinBadend_next {b : Byte} {s t : State} :
    execFinBadend b s = .next t ↔
      (s.mode = .accum ∧ position s = .last) ∧
        (∃ f, completion b s = .ok f ∧ f.endByte ≠ Wire.endMarker) ∧ t = raise .badFraming s := by
  simp only [execFinBadend, whenSelected_next, orFault_next]
  constructor
  · rintro ⟨h, f, hf, he, ht⟩
    cases ht
    exact ⟨h, ⟨f, hf, he⟩, rfl⟩
  · rintro ⟨h, ⟨f, hf, he⟩, rfl⟩
    exact ⟨h, f, hf, he, rfl⟩

theorem execFinBadcrc_next {s t : State} :
    execFinBadcrc s = .next t ↔
      (s.mode = .accum ∧ position s = .last) ∧
        (∃ f, completion Wire.endMarker s = .ok f ∧ crc8 f.payload ≠ f.crcByte) ∧
        t = raise .crcMismatch s := by
  simp only [execFinBadcrc, whenSelected_next, orFault_next, crcMatches, decide_eq_false_iff_not]
  constructor
  · rintro ⟨h, f, hf, he, ht⟩
    cases ht
    exact ⟨h, ⟨f, hf, he⟩, rfl⟩
  · rintro ⟨h, ⟨f, hf, he⟩, rfl⟩
    exact ⟨h, f, hf, he, rfl⟩

theorem execFinOk_next {s t : State} :
    execFinOk s = .next t ↔
      (s.mode = .accum ∧ position s = .last) ∧
        ∃ f, completion Wire.endMarker s = .ok f ∧ crc8 f.payload = f.crcByte ∧ t = accept f.payload s := by
  simp only [execFinOk, whenSelected_next, orFault_next, crcMatches, decide_eq_true_eq]
  constructor
  · rintro ⟨h, f, hf, he, ht⟩
    cases ht
    exact ⟨h, f, hf, he, rfl⟩
  · rintro ⟨h, f, hf, he, rfl⟩
    exact ⟨h, f, hf, he, rfl⟩

theorem execHsk_next {s t : State} :
    execHsk s = .next t ↔
      s.mode = .seek ∧ t = emit { tx := some Wire.handshakeResp, hs := true } (setNegotiated s) := by
  rw [execHsk, whenSelected_next, next_eq_next]

/-! ## The step -/

/-- A step with an event next handles it, the rest of the stream left for later steps (R44). -/
theorem step_cons {s : State} {e : RxEvent} {rest : List RxEvent} (h : s.rx = e :: rest) :
    step s = handleEvent e { s with rx := rest } := by rw [step, fetchAndRun, h]

/-- A step with nothing received answers the same state (R150). -/
theorem step_nil {s : State} (h : s.rx = []) (hv : s.cfg.Valid) : step s = .next s := by
  rw [step, fetchAndRun, h]; exact if_pos hv

theorem handleEvent_byte {s : State} (hv : s.cfg.Valid) (b : Byte) : handleEvent (.byte b) s = executeByte b s :=
  if_pos hv

theorem handleEvent_reset {s : State} (hv : s.cfg.Valid) (c : Option Byte) :
    handleEvent (.reset c) s = .next (resetEvent s) := if_pos hv

theorem handleEvent_invalid {s : State} (hv : ¬ s.cfg.Valid) (e : RxEvent) :
    handleEvent e s = .refused .maxLenOutOfRange := if_neg hv

/-- Without an admitted MAX_LEN every step refuses (D1). -/
theorem step_invalid {s : State} (hv : ¬ s.cfg.Valid) : step s = .refused .maxLenOutOfRange := by
  cases h : s.rx with
  | nil => rw [step, fetchAndRun, h]; exact if_neg hv
  | cons e rest => rw [step_cons h]; exact handleEvent_invalid (s := { s with rx := rest }) hv e

/-- An event that is handled is RESET, or a byte. -/
theorem handleEvent_next {e : RxEvent} {s t : State} :
    handleEvent e s = .next t ↔
      s.cfg.Valid ∧
        ((∃ c, e = .reset c ∧ t = resetEvent s) ∨ ∃ b, e = .byte b ∧ executeByte b s = .next t) := by
  by_cases hv : s.cfg.Valid
  · rw [and_iff_right hv]
    cases e with
    | byte b => rw [handleEvent_byte hv]; simp
    | reset c => rw [handleEvent_reset hv, next_eq_next]; simp
  · rw [handleEvent_invalid hv]
    constructor
    · intro h; cases h
    · rintro ⟨h, -⟩; exact absurd h hv

/-- A step that answers did nothing for want of an event, or handled the next event. -/
theorem step_next {s t : State} :
    step s = .next t ↔
      (s.cfg.Valid ∧ s.rx = [] ∧ t = s) ∨
        ∃ e rest, s.rx = e :: rest ∧ handleEvent e { s with rx := rest } = .next t := by
  cases h : s.rx with
  | cons e rest =>
    rw [step_cons h]
    constructor
    · exact fun he => .inr ⟨e, rest, rfl, he⟩
    · rintro (⟨-, h', -⟩ | ⟨e', rest', h', he⟩)
      · cases h'
      · cases h'; exact he
  | nil =>
    by_cases hv : s.cfg.Valid
    · rw [step_nil h hv, next_eq_next]; simpa using fun _ => hv
    · rw [step_invalid hv]
      constructor
      · intro h'; cases h'
      · rintro (⟨h', -⟩ | ⟨_, _, h', -⟩)
        · exact absurd h' hv
        · cases h'

/-- A byte that is handled ran the operation its dispatch word decodes to. -/
theorem executeByte_next {b : Byte} {s t : State} :
    executeByte b s = .next t ↔
      ∃ i, decode (decodeCtx s) (dispatchWord s.mode b) = .ok i ∧ exec i s = .next t := by
  unfold executeByte
  split
  · rename_i i h; simp [h]
  · rename_i h; simp [h]

/-- The operation a byte selects, by mode (R69, R70, R71). -/
theorem decode_of_seek {s : State} (h : s.mode = .seek) (b : Byte) :
    decode (decodeCtx s) (dispatchWord s.mode b) = .ok (decodeSeek b) := by rw [h]; simp

theorem decode_of_rlen {s : State} (h : s.mode = .rlen) (b : Byte) :
    decode (decodeCtx s) (dispatchWord s.mode b) = .ok (decodeLength s.cfg b) := by rw [h]; simp [decodeCtx]

theorem decode_of_accum {s : State} (h : s.mode = .accum) (b : Byte) :
    decode (decodeCtx s) (dispatchWord s.mode b) = decodeAccum (decodeCtx s) b := by rw [h]; simp

/-- The inbound stream's remainder plays no part in what a byte selects (R44: no look-ahead). -/
@[simp] theorem decodeCtx_rx (s : State) (r : List RxEvent) : decodeCtx { s with rx := r } = decodeCtx s := by
  have h : ∀ b, completion b { s with rx := r } = completion b s := fun b => by
    unfold completion append byteAt memRead
    by_cases h4 : s.len.toNat < 4
    · simp [h4]
    · by_cases hc : s.cnt.toNat < s.cfg.maxLen.toNat <;> simp [h4, hc]
  simp only [decodeCtx, crcGood, h, position]

end Sys2Proof.Machine
end

