-- ==== Sys2Proof/Laws/Invariant.lean ====
section
/-!
SUPPORT. What the invariants of R27 give in ACCUM, how they survive the two kinds of update that end a step there, and
runs one event at a time.
-/

namespace Sys2Proof.Machine

/-! ## The buffer in ACCUM -/

/-- The buffered byte sequence is `cnt` bytes long (R20). -/
theorem State.AccumInv.bytes_length {s : State} (h : s.AccumInv) : s.bytes.length = s.cnt.toNat := by
  simpa [State.bytes] using congrArg List.length h.2.2.2.2.1

/-- Before the last byte the CRC byte is buffered. -/
theorem State.AccumInv.frameCrc_some {s : State} (h : s.AccumInv) (hl : s.cnt.toNat + 1 = s.len.toNat) :
    ∃ c, s.frameCrc = some c := by
  have := h.bytes_length
  exact ⟨_, List.getElem?_eq_getElem (by omega)⟩

/-- The completion by byte `b`: `b` itself, the buffered CRC byte, the buffered payload (R117). -/
theorem State.AccumInv.completion_eq {s : State} (h : s.AccumInv) (hl : s.cnt.toNat + 1 = s.len.toNat) (b : Byte)
    {c : Byte} (hc : s.frameCrc = some c) : completion b s = .ok ⟨b, c, s.framePayload⟩ :=
  completion_of_range h.2.2.2.2.1 h.1 hl h.2.1 hc

/-- What the decoder consults about the CRC is the check of R95 on the buffered bytes. -/
theorem State.AccumInv.crcGood_iff {s : State} (h : s.AccumInv) (hl : s.cnt.toNat + 1 = s.len.toNat) :
    crcGood s = true ↔ s.frameCrc = some (crc8 s.framePayload) := by
  obtain ⟨c, hc⟩ := h.frameCrc_some hl
  rw [crcGood, h.completion_eq hl _ hc, hc]
  simp [crcMatches, eq_comm]

/-! ## Updates that keep the invariants -/

/-- An idle parser has the invariants. -/
theorem inv_idleWith {s : State} (h : s.cfg.Valid) (o : Out) : (s.idleWith o).Inv :=
  ⟨h, fun _ => ⟨rfl, rfl, rfl⟩, fun e => Mode.noConfusion e, fun e => Mode.noConfusion e⟩

/-- One more byte before the last position. -/
theorem inv_accumulate {s : State} (hi : s.Inv) (hm : s.mode = .accum) (h : s.cnt.toNat + 1 < s.len.toNat) (b : Byte)
    (os : List Out) :
    ({ s with buf := s.buf ++ [(s.cnt.toNat, b)], cnt := s.cnt + 1#8, outs := os } : State).Inv := by
  obtain ⟨h4, hmx, h2, hle, hr, hA, hL⟩ := hi.2.2.2 hm
  have hc : (s.cnt + 1#8).toNat = s.cnt.toNat + 1 := by
    have := s.len.isLt
    have h1 : (1#8).toNat = 1 := rfl
    simp only [BitVec.toNat_add, h1]; omega
  have hr' : (s.buf ++ [(s.cnt.toNat, b)]).map Prod.fst = List.range (s.cnt.toNat + 1) := by
    rw [List.map_append, hr, List.range_succ]; rfl
  have hlen : s.buf.length = s.cnt.toNat := by simpa using congrArg List.length hr
  have keep : ∀ a, a < s.cnt.toNat → (s.buf ++ [(s.cnt.toNat, b)] : Memory).read a = s.buf.read a := fun a ha => by
    rw [Memory.read_of_range hr', Memory.read_of_range hr, List.map_append, List.getElem?_append_left (by simpa [hlen])]
  refine ⟨hi.1, fun e => ?_, fun e => ?_, fun _ =>
    ⟨h4, hmx, ?_, ?_, hr'.trans (congrArg List.range hc.symm), (keep 0 (by omega)).trans hA,
      (keep 1 (by omega)).trans hL⟩⟩
  · exact Mode.noConfusion (hm.symm.trans e)
  · exact Mode.noConfusion (hm.symm.trans e)
  · show 2 ≤ (s.cnt + 1#8).toNat; omega
  · show (s.cnt + 1#8).toNat + 1 ≤ s.len.toNat; omega

/-! ## Runs, one event at a time -/

theorem run_cons_next {e : RxEvent} {es : List RxEvent} {s t : State} (h : handleEvent e s = .next t) :
    run (e :: es) s = run es t := by rw [run, h]

theorem steps_succ_next {n : Nat} {s t : State} (h : step s = .next t) : steps (n + 1) s = steps n t := by
  rw [steps, h]

@[simp] theorem received_nil : received [] = [] := rfl

@[simp] theorem received_cons (b : Byte) (bs : List Byte) : received (b :: bs) = .byte b :: received bs := rfl

@[simp] theorem received_append (x y : List Byte) : received (x ++ y) = received x ++ received y := List.map_append

/-! ## The codec -/

/-- The codec's register after a byte sequence; nothing else changes (R94). -/
theorem crcRun_eq (bs : List Byte) (s : State) : crcRun bs s = setCrc (crc8 bs) s := by
  have h : ∀ t : State, bs.foldl crcTake t = setCrc (bs.foldl crcAbsorb t.crc) t := by
    induction bs with
    | nil => intro t; rfl
    | cons d bs ih => intro t; rw [List.foldl_cons, ih, crcTake_eq]; rfl
  rw [crcRun, h]; rfl

end Sys2Proof.Machine
end

