-- ==== Sys2Proof/Laws/Inbound.lean ====
section
/-!
SUPPORT. What waits on RX is neither read nor written by an instruction (R44): with another remainder on RX each answers
the same, the remainder kept.
-/

namespace Sys2Proof.Machine

/-- The result with its next state changed by `f`; a fault or a refusal stays. -/
def mapNext (f : State → State) : Result → Result
  | .next t => .next (f t)
  | .fault e => .fault e
  | .refused e => .refused e

@[simp] theorem mapNext_next (f : State → State) (t : State) : mapNext f (.next t) = .next (f t) := rfl
@[simp] theorem mapNext_fault (f : State → State) (e : Fault) : mapNext f (.fault e) = .fault e := rfl
@[simp] theorem mapNext_refused (f : State → State) (e : Refusal) : mapNext f (.refused e) = .refused e := rfl

theorem whenSelected_mapNext {f : State → State} {p : Prop} [Decidable p] {k k' : Result} (h : k' = mapNext f k) :
    whenSelected p k' = mapNext f (whenSelected p k) := by
  unfold whenSelected; split <;> simp [h]

theorem orFault_mapNext {α : Type} {f : State → State} {x : Except Fault α} {k k' : α → Result}
    (h : ∀ a, k' a = mapNext f (k a)) : orFault x k' = mapNext f (orFault x k) := by
  cases x <;> simp [orFault, h]

/-- `s` with `r` waiting on RX. -/
abbrev State.withRx (r : List RxEvent) (s : State) : State := { s with rx := r }

theorem append_withRx {f : State → State} (v : Byte) (s : State) (r : List RxEvent) {k k' : State → Result}
    (h : ∀ t, k' (t.withRx r) = mapNext f (k t)) :
    orFault (append v (s.withRx r)) k' = mapNext f (orFault (append v s) k) := by
  unfold append
  by_cases hc : s.cnt.toNat < s.cfg.maxLen.toNat
  · simp only [if_pos hc, orFault]
    exact h { s with buf := s.buf.write s.cnt.toNat v, cnt := s.cnt + 1#8 }
  · simp only [if_neg hc, orFault, mapNext_fault]

theorem completion_withRx (b : Byte) (s : State) (r : List RxEvent) :
    completion b (s.withRx r) = completion b s := by
  unfold completion append byteAt memRead
  by_cases h4 : s.len.toNat < 4
  · simp [h4]
  · by_cases hc : s.cnt.toNat < s.cfg.maxLen.toNat <;> simp [h4, hc]

theorem crcGood_withRx (s : State) (r : List RxEvent) : crcGood (s.withRx r) = crcGood s := by
  simp only [crcGood, completion_withRx]

/-- The byte-driven operations. -/
theorem exec_withRx_of_dispatch {i : Instr} {w : BitVec 10} (h : encode i = .dispatch w) (s : State)
    (r : List RxEvent) : exec i (s.withRx r) = mapNext (State.withRx r) (exec i s) := by
  cases i <;> simp only [encode, reduceCtorEq] at h
  case sync => exact whenSelected_mapNext (append_withRx _ (clearBuffer s) r fun _ => rfl)
  case lenok | acc => exact whenSelected_mapNext (append_withRx _ s r fun _ => rfl)
  case hsk | skip | lenbad | lenbadHi => exact whenSelected_mapNext rfl
  all_goals
    refine whenSelected_mapNext ?_
    rw [completion_withRx]
    exact orFault_mapNext fun _ => whenSelected_mapNext rfl

/-- The reference step, and so the received constants. -/
theorem receive_withRx (b : Byte) (s : State) (r : List RxEvent) :
    receive b (s.withRx r) = mapNext (State.withRx r) (receive b s) := by
  have op : ∀ i w, encode i = .dispatch w → exec i (s.withRx r) = mapNext (State.withRx r) (exec i s) :=
    fun _ _ h => exec_withRx_of_dispatch h s r
  have hm : (s.withRx r).mode = s.mode := rfl
  have hc : (s.withRx r).cfg = s.cfg := rfl
  have hp : position (s.withRx r) = position s := rfl
  unfold receive
  rw [hm, hc, hp, crcGood_withRx]
  split
  · split
    · exact op .sync _ rfl
    · split
      · exact op .hsk _ rfl
      · exact op (.skip b) _ rfl
  · split
    · exact op (.lenbad b) _ rfl
    · split
      · exact op (.lenbadHi b) _ rfl
      · exact op (.lenok b) _ rfl
  · split
    · exact op (.acc b) _ rfl
    · split
      · exact op (.finBadend b) _ rfl
      · split
        · exact op .finOk _ rfl
        · exact op .finBadcrc _ rfl
    · rfl

/-- Every instruction. -/
theorem exec_withRx (i : Instr) (s : State) (r : List RxEvent) :
    exec i (s.withRx r) = mapNext (State.withRx r) (exec i s) := by
  cases i with
  | crcInit | crcBit | crcByte | handshakeResp | ack | nack => rfl
  | crcCompute bs =>
    show Host.Outcome.next (crcRun bs (s.withRx r)) = .next _
    rw [crcRun_eq, crcRun_eq]; rfl
  | crcCheck p c =>
    show Host.Outcome.next (setCrcOk (decide ((crcRun p (s.withRx r)).crc = c)) (crcRun p (s.withRx r))) = .next _
    rw [crcRun_eq, crcRun_eq]; rfl
  | header | endMarker | handshakeReq => exact receive_withRx _ s r
  | sync | hsk | skip | lenbad | lenbadHi | lenok | acc | finBadend | finBadcrc | finOk =>
    exact exec_withRx_of_dispatch rfl s r

/-- One event, already taken from RX. -/
theorem handleEvent_withRx (e : RxEvent) (s : State) (r : List RxEvent) :
    handleEvent e (s.withRx r) = mapNext (State.withRx r) (handleEvent e s) := by
  by_cases hv : s.cfg.Valid
  · cases e with
    | reset c => rw [handleEvent_reset hv, handleEvent_reset (s := s.withRx r) hv]; rfl
    | byte b =>
      rw [handleEvent_byte hv, handleEvent_byte (s := s.withRx r) hv]
      unfold executeByte
      rw [decodeCtx_rx]
      show (match decode (decodeCtx s) (dispatchWord s.mode b) with
        | .ok i => exec i (s.withRx r)
        | .error _ => _) = _
      cases decode (decodeCtx s) (dispatchWord s.mode b) with
      | ok i => exact exec_withRx i s r
      | error _ => rfl
  · rw [handleEvent_invalid hv, handleEvent_invalid (s := s.withRx r) hv]; rfl

end Sys2Proof.Machine
end

