-- ==== Sys2Proof/Laws/PerInstr.lean ====
section
/-!
SUPPORT. Per instruction: the encoding of a well-formed instruction has its row's width and fits its row's match and
mask (spec/opcode_table.json).
-/

namespace Sys2Proof.Laws.EncodeRow

/-- For every admitted MAX_LEN, a well-formed instruction's encoding matches its own row of the table. -/
def Statement (i : Instr) : Prop := ∀ c : Config, c.Valid → i.wf c = true → i.row.matches (encode i) = true

/-- The three open rows of a mode: the mode field is the row's, whatever the byte. -/
theorem seek_row : ∀ b : Byte, (⟨10, 0x000, 0x300⟩ : RowPattern).matches (.dispatch (dispatchWord .seek b)) = true := by
  decide

theorem rlen_row : ∀ b : Byte, (⟨10, 0x100, 0x300⟩ : RowPattern).matches (.dispatch (dispatchWord .rlen b)) = true := by
  decide

theorem accum_row : ∀ b : Byte, (⟨10, 0x200, 0x300⟩ : RowPattern).matches (.dispatch (dispatchWord .accum b)) = true := by
  decide

theorem lenbad_row : ∀ b : Byte, b.toNat < 4 →
    (⟨10, 0x100, 0x3FC⟩ : RowPattern).matches (.dispatch (dispatchWord .rlen b)) = true := by decide

theorem sync : Statement .sync := fun _ _ _ => by decide
theorem hsk : Statement .hsk := fun _ _ _ => by decide
theorem skip (b : Byte) : Statement (.skip b) := fun _ _ _ => seek_row b
theorem lenbad (b : Byte) : Statement (.lenbad b) := fun _ _ h => lenbad_row b (of_decide_eq_true h)
theorem lenbadHi (b : Byte) : Statement (.lenbadHi b) := fun _ _ _ => rlen_row b
theorem lenok (b : Byte) : Statement (.lenok b) := fun _ _ _ => rlen_row b
theorem acc (b : Byte) : Statement (.acc b) := fun _ _ _ => accum_row b
theorem finBadend (b : Byte) : Statement (.finBadend b) := fun _ _ _ => accum_row b
theorem finBadcrc : Statement .finBadcrc := fun _ _ _ => by decide
theorem finOk : Statement .finOk := fun _ _ _ => by decide
theorem crcInit : Statement .crcInit := fun _ _ _ => rfl
theorem crcBit : Statement .crcBit := fun _ _ _ => rfl
theorem crcByte (d : Byte) : Statement (.crcByte d) := fun _ _ _ => rfl
theorem crcCompute (bs : List Byte) : Statement (.crcCompute bs) := fun _ _ _ => rfl
theorem crcCheck (p : List Byte) (c : Byte) : Statement (.crcCheck p c) := fun _ _ _ => rfl
theorem header : Statement .header := fun _ _ _ => by decide
theorem endMarker : Statement .endMarker := fun _ _ _ => by decide
theorem handshakeReq : Statement .handshakeReq := fun _ _ _ => by decide
theorem handshakeResp : Statement .handshakeResp := fun _ _ _ => by decide
theorem ack : Statement .ack := fun _ _ _ => by decide
theorem nack : Statement .nack := fun _ _ _ => by decide

end Sys2Proof.Laws.EncodeRow
end

