-- ==== Sys2Proof/Tests/Slice0.lean ====
section
/-!
SUPPORT. Small tests. Expected values come from spec/95_test_vectors.md (T<n> single steps, S<n> source examples, the
codec tables), from the examples of the operation rules, or from words written out by hand from spec/30_encoding.md. The
`witness_` theorems show for each statement with hypotheses a concrete case that meets all of them.
-/

namespace Sys2Proof.Tests

set_option maxRecDepth 4000

open Sys2Proof Sys2Proof.Machine

/-- A small state: the bytes stand at indices 0, 1, …; the rest as after reset. -/
def st (m : Mode) (bs : List Byte) (len : Byte) (neg : Bool := false) (maxLen : Byte := 255#8) : State :=
  { State.reset with
    cfg := ⟨maxLen⟩, mode := m, cnt := BitVec.ofNat 8 bs.length,
    buf := (List.range bs.length).zip bs, len := len, negotiated := neg }

/-- The same state with one byte next on RX. -/
def rx (b : Byte) (s : State) : State := { s with rx := [.byte b] }

/-- A view of the next state, none if there is none. -/
def see {α : Type} (r : Result) (f : State → α) : Option α :=
  match r with
  | .next t => some (f t)
  | .fault _ => none
  | .refused _ => none

/-- The parser's part of a state and the flag. -/
structure Parser where
  mode : Mode
  cnt : Nat
  bytes : List Byte
  len : Byte
  negotiated : Bool
  deriving DecidableEq, Repr

/-- The parser's part, and the records put out. -/
structure View where
  parser : Parser
  outs : List Out
  deriving DecidableEq, Repr

def parser (s : State) : Parser := ⟨s.mode, s.cnt.toNat, s.bytes, s.len, s.negotiated⟩

def idleP (neg : Bool) : Parser := ⟨.seek, 0, [], 0#8, neg⟩

def view (s : State) : View := ⟨parser s, s.outs⟩

def hello : List Byte := [0x48#8, 0x65#8, 0x6C#8, 0x6C#8, 0x6F#8]

/-- One byte short of a complete "Hello" frame with CRC byte `c`. -/
def almost (c : Byte) : State := st .accum ([0xAA#8, 0x09#8] ++ hello ++ [c]) 9#8

/-! ## WellFormed refuses ill-formed terms (R69, R70, R71) -/

theorem test_wf_skip_header : (Instr.skip 0xAA#8).wf Config.standard = false := by decide
theorem test_wf_skip_handshake : (Instr.skip 0xB1#8).wf Config.standard = false := by decide
theorem test_wf_lenbad_four : (Instr.lenbad 4#8).wf Config.standard = false := by decide
theorem test_wf_lenbadHi_at_bound : (Instr.lenbadHi 16#8).wf ⟨16#8⟩ = false := by decide
theorem test_wf_lenbadHi_never_at_255 : (Instr.lenbadHi 255#8).wf Config.standard = false := by decide
theorem test_wf_lenok_three : (Instr.lenok 3#8).wf Config.standard = false := by decide
theorem test_wf_lenok_above : (Instr.lenok 17#8).wf ⟨16#8⟩ = false := by decide
theorem test_wf_finBadend_end : (Instr.finBadend 0xBB#8).wf Config.standard = false := by decide

/-! ## Decoding: every row's word, written out from R68 and R62 -/

theorem test_decode_written_words : Obligations.WrittenOutWordsDecode := by
  unfold Obligations.WrittenOutWordsDecode; decide

/-- The table's words through the host's numbering: 10 bits in two bytes, the constants in one. -/
theorem test_decode_table_words :
    decodeTableWord 16 0x0AA = some .sync ∧ decodeTableWord 16 0x0B1 = some .hsk ∧
    decodeTableWord 16 0x000 = some (.skip 0#8) ∧ decodeTableWord 16 0x100 = some (.lenbad 0#8) ∧
    decodeTableWord 16 0x1FF = some (.lenok 0xFF#8) ∧ decodeTableWord 16 0x200 = some (.acc 0#8) ∧
    decodeTableWord 16 0x2BB = some .finOk ∧ decodeTableWord 8 0xBB = some .endMarker ∧
    decodeTableWord 8 0x06 = some .ack := by decide

/-- No instruction: mode encoding 3 (R72), a bit above the dispatch word, a byte that is no constant. -/
theorem test_decode_rejects :
    decodeWord 16 0x300 = .error .unusedMode ∧ decodeWord 16 0x400 = .error .wordTooWide ∧
    decodeWord 8 0x00 = .error .notAConstant ∧ decodeWord 0 0 = .error .noEncoding := by
  refine ⟨?_, ?_, ?_, ?_⟩ <;> rfl

/-- A placed word is what the next step runs (one of each mode, and a constant). -/
theorem test_withFetchWord_sync : see (step (State.reset.withFetchWord 16 0x0AA)) parser
    = some ⟨.rlen, 1, [0xAA#8], 0#8, false⟩ := by decide
theorem test_withFetchWord_lenok : see (step (State.reset.withFetchWord 16 0x109)) parser
    = some ⟨.accum, 2, [0xAA#8, 9#8], 9#8, false⟩ := by decide
theorem test_withFetchWord_ack : see (step (State.reset.withFetchWord 8 0x06)) (fun t => txOf t.outs)
    = some [0x06#8] := by decide

/-! ## The byte-driven operations, one step each -/

/-- T2. -/
theorem test_skip_end_is_noise : see (step (rx 0xBB#8 State.reset)) view = some ⟨idleP false, [Out.empty]⟩ := by decide
/-- T4. -/
theorem test_sync : see (step (rx 0xAA#8 State.reset)) view
    = some ⟨⟨.rlen, 1, [0xAA#8], 0#8, false⟩, [Out.empty]⟩ := by decide
/-- T5. -/
theorem test_hsk : see (step (rx 0xB1#8 State.reset)) view
    = some ⟨idleP true, [{ tx := some 0x55#8, hs := true }]⟩ := by decide
/-- T6. -/
theorem test_hsk_again : see (step (rx 0xB1#8 (st .seek [] 0#8 true))) view
    = some ⟨idleP true, [{ tx := some 0x55#8, hs := true }]⟩ := by decide
/-- T7. -/
theorem test_lenbad_three : see (step (rx 3#8 (st .rlen [0xAA#8] 0#8))) view
    = some ⟨idleP false, [{ tx := some 0x15#8, outcome := some .rejectedLengthMismatch }]⟩ := by decide
/-- T9. -/
theorem test_lenok_four : see (step (rx 4#8 (st .rlen [0xAA#8] 0#8))) view
    = some ⟨⟨.accum, 2, [0xAA#8, 4#8], 4#8, false⟩, [Out.empty]⟩ := by decide
/-- T12: 0xB1 as a length draws no 0x55. -/
theorem test_lenok_handshake_byte : see (step (rx 0xB1#8 (st .rlen [0xAA#8] 0#8))) view
    = some ⟨⟨.accum, 2, [0xAA#8, 0xB1#8], 177#8, false⟩, [Out.empty]⟩ := by decide
/-- T13. -/
theorem test_lenbadHi : see (step (rx 17#8 (st .rlen [0xAA#8] 0#8 false 16#8))) view
    = some ⟨idleP false, [{ tx := some 0x15#8, outcome := some .rejectedLengthMismatch }]⟩ := by decide
/-- T15: an oversize 0xAA is no new header. -/
theorem test_lenbadHi_header_byte : see (step (rx 0xAA#8 (st .rlen [0xAA#8] 0#8 false 16#8))) parser
    = some (idleP false) := by decide
/-- T17. -/
theorem test_acc_header_byte : see (step (rx 0xAA#8 (st .accum [0xAA#8, 9#8, 0x48#8] 9#8))) view
    = some ⟨⟨.accum, 4, [0xAA#8, 9#8, 0x48#8, 0xAA#8], 9#8, false⟩, [Out.empty]⟩ := by decide
/-- T19. -/
theorem test_acc_end_byte : see (step (rx 0xBB#8 (st .accum [0xAA#8, 9#8, 0x48#8] 9#8))) view
    = some ⟨⟨.accum, 4, [0xAA#8, 9#8, 0x48#8, 0xBB#8], 9#8, false⟩, [Out.empty]⟩ := by decide
/-- T21. -/
theorem test_finBadend : see (step (rx 0xBA#8 (almost 0xF6#8))) view
    = some ⟨idleP false, [{ tx := some 0x15#8, outcome := some .rejectedBadFraming }]⟩ := by decide
/-- T23: END is checked before the CRC. -/
theorem test_finBadend_before_crc : see (step (rx 0x00#8 (almost 0x00#8))) view
    = some ⟨idleP false, [{ tx := some 0x15#8, outcome := some .rejectedBadFraming }]⟩ := by decide
/-- T22 and S2: the source's printed CRC literal 92 is rejected (C1). -/
theorem test_finBadcrc_source_literal : see (step (rx 0xBB#8 (almost 0x92#8))) view
    = some ⟨idleP false, [{ tx := some 0x15#8, outcome := some .rejectedCrcMismatch }]⟩ := by decide
/-- T25: `negotiated` is kept. -/
theorem test_finBadcrc_keeps_flag : see (step (rx 0xBB#8 (st .accum [0xAA#8, 4#8, 1#8] 4#8 true))) parser
    = some (idleP true) := by decide
/-- T20. -/
theorem test_finOk : see (step (rx 0xBB#8 (almost 0xF6#8))) view
    = some ⟨idleP false, [{ tx := some 0x06#8, outcome := some (.accepted hello) }]⟩ := by decide
/-- T24. -/
theorem test_finOk_empty_payload : see (step (rx 0xBB#8 (st .accum [0xAA#8, 4#8, 0#8] 4#8))) view
    = some ⟨idleP false, [{ tx := some 0x06#8, outcome := some (.accepted []) }]⟩ := by decide
/-- T26. -/
theorem test_reset_event :
    see (step { st .accum [0xAA#8, 9#8, 0x48#8, 0x65#8] 9#8 true with rx := [.reset none] }) view
      = some ⟨idleP false, []⟩ := by decide
/-- R201: RESET wins over a coinciding header, and MAX_LEN stays. -/
theorem test_reset_wins :
    step { st .rlen [0xAA#8] 0#8 true 16#8 with rx := [.reset (some 0xAA#8), .byte 1#8] } =
      .next { State.reset with cfg := ⟨16#8⟩, rx := [.byte 1#8] } := by rfl
/-- D1: no engine with MAX_LEN below 4. -/
theorem test_maxLen_refused : step (rx 0xAA#8 (st .seek [] 0#8 false 3#8)) = .refused .maxLenOutOfRange := by rfl

/-! ## The codec -/

/-- R91. -/
theorem test_crcInit : see (exec .crcInit { State.reset with crc := 0x5A#8 }) State.crc = some 0#8 := by decide
/-- The table of CRC.BIT: FF to F9. -/
theorem test_crcBit_top_set : see (exec .crcBit { State.reset with crc := 0xFF#8 }) State.crc = some 0xF9#8 := by decide
/-- The table of CRC.BIT: 7F to FE. -/
theorem test_crcBit_top_clear : see (exec .crcBit { State.reset with crc := 0x7F#8 }) State.crc = some 0xFE#8 := by
  decide
/-- R93's example. -/
theorem test_crcByte : see (exec (.crcByte 0x48#8) State.reset) State.crc = some 0xFF#8 := by decide
/-- R94's example, from any register. -/
theorem test_crcCompute_hello : see (exec (.crcCompute hello) { State.reset with crc := 0x77#8 }) State.crc
    = some 0xF6#8 := by decide
/-- The codec table: "123456789". -/
theorem test_crcCompute_check_value :
    see (exec (.crcCompute [0x31#8, 0x32#8, 0x33#8, 0x34#8, 0x35#8, 0x36#8, 0x37#8, 0x38#8, 0x39#8]) State.reset) State.crc
      = some 0xF4#8 := by decide
/-- CRC.CHECK's table. -/
theorem test_crcCheck_passes : see (exec (.crcCheck hello 0xF6#8) State.reset) State.crcOk = some true := by decide
theorem test_crcCheck_fails :
    see (exec (.crcCheck hello 0x92#8) { State.reset with crcOk := true }) State.crcOk = some false := by decide

/-- The byte table of R101, by rows. -/
def table : List Nat :=
  [0x00, 0x07, 0x0E, 0x09, 0x1C, 0x1B, 0x12, 0x15, 0x38, 0x3F, 0x36, 0x31, 0x24, 0x23, 0x2A, 0x2D] ++
  [0x70, 0x77, 0x7E, 0x79, 0x6C, 0x6B, 0x62, 0x65, 0x48, 0x4F, 0x46, 0x41, 0x54, 0x53, 0x5A, 0x5D] ++
  [0xE0, 0xE7, 0xEE, 0xE9, 0xFC, 0xFB, 0xF2, 0xF5, 0xD8, 0xDF, 0xD6, 0xD1, 0xC4, 0xC3, 0xCA, 0xCD] ++
  [0x90, 0x97, 0x9E, 0x99, 0x8C, 0x8B, 0x82, 0x85, 0xA8, 0xAF, 0xA6, 0xA1, 0xB4, 0xB3, 0xBA, 0xBD] ++
  [0xC7, 0xC0, 0xC9, 0xCE, 0xDB, 0xDC, 0xD5, 0xD2, 0xFF, 0xF8, 0xF1, 0xF6, 0xE3, 0xE4, 0xED, 0xEA] ++
  [0xB7, 0xB0, 0xB9, 0xBE, 0xAB, 0xAC, 0xA5, 0xA2, 0x8F, 0x88, 0x81, 0x86, 0x93, 0x94, 0x9D, 0x9A] ++
  [0x27, 0x20, 0x29, 0x2E, 0x3B, 0x3C, 0x35, 0x32, 0x1F, 0x18, 0x11, 0x16, 0x03, 0x04, 0x0D, 0x0A] ++
  [0x57, 0x50, 0x59, 0x5E, 0x4B, 0x4C, 0x45, 0x42, 0x6F, 0x68, 0x61, 0x66, 0x73, 0x74, 0x7D, 0x7A]

/-- The upper half of the table. -/
def tableHigh : List Nat :=
  [0x89, 0x8E, 0x87, 0x80, 0x95, 0x92, 0x9B, 0x9C, 0xB1, 0xB6, 0xBF, 0xB8, 0xAD, 0xAA, 0xA3, 0xA4] ++
  [0xF9, 0xFE, 0xF7, 0xF0, 0xE5, 0xE2, 0xEB, 0xEC, 0xC1, 0xC6, 0xCF, 0xC8, 0xDD, 0xDA, 0xD3, 0xD4] ++
  [0x69, 0x6E, 0x67, 0x60, 0x75, 0x72, 0x7B, 0x7C, 0x51, 0x56, 0x5F, 0x58, 0x4D, 0x4A, 0x43, 0x44] ++
  [0x19, 0x1E, 0x17, 0x10, 0x05, 0x02, 0x0B, 0x0C, 0x21, 0x26, 0x2F, 0x28, 0x3D, 0x3A, 0x33, 0x34] ++
  [0x4E, 0x49, 0x40, 0x47, 0x52, 0x55, 0x5C, 0x5B, 0x76, 0x71, 0x78, 0x7F, 0x6A, 0x6D, 0x64, 0x63] ++
  [0x3E, 0x39, 0x30, 0x37, 0x22, 0x25, 0x2C, 0x2B, 0x06, 0x01, 0x08, 0x0F, 0x1A, 0x1D, 0x14, 0x13] ++
  [0xAE, 0xA9, 0xA0, 0xA7, 0xB2, 0xB5, 0xBC, 0xBB, 0x96, 0x91, 0x98, 0x9F, 0x8A, 0x8D, 0x84, 0x83] ++
  [0xDE, 0xD9, 0xD0, 0xD7, 0xC2, 0xC5, 0xCC, 0xCB, 0xE6, 0xE1, 0xE8, 0xEF, 0xFA, 0xFD, 0xF4, 0xF3]

theorem test_crc_byte_table :
    (List.range 256).map (fun x => (crc8 [BitVec.ofNat 8 x]).toNat) = table ++ tableHigh := by decide

/-! ## The constants -/

/-- R70: HEADER in RLEN is the length 170 (T11). -/
theorem test_header_as_length : see (exec .header (st .rlen [0xAA#8] 0#8)) parser
    = some ⟨.accum, 2, [0xAA#8, 0xAA#8], 170#8, false⟩ := by decide
/-- R69: END in SEEK is noise; at the last position it completes the frame (T20). -/
theorem test_endMarker_as_noise : see (exec .endMarker State.reset) view = some ⟨idleP false, [Out.empty]⟩ := by decide
theorem test_endMarker_completes : see (exec .endMarker (almost 0xF6#8)) (fun t => txOf t.outs) = some [0x06#8] := by
  decide
/-- R142: HANDSHAKE_REQ inside a frame is data (T18). -/
theorem test_handshakeReq_as_data : see (exec .handshakeReq (st .accum [0xAA#8, 9#8, 0x48#8] 9#8)) view
    = some ⟨⟨.accum, 4, [0xAA#8, 9#8, 0x48#8, 0xB1#8], 9#8, false⟩, [Out.empty]⟩ := by decide
/-- R62, R64. -/
theorem test_handshakeResp : see (exec .handshakeResp State.reset) (fun t => txOf t.outs) = some [0x55#8] := by decide
theorem test_ack : see (exec .ack State.reset) (fun t => txOf t.outs) = some [0x06#8] := by decide
theorem test_nack : see (exec .nack State.reset) (fun t => txOf t.outs) = some [0x15#8] := by decide

/-! ## Witnesses: the hypotheses of the statements can be met -/

/-- A state in ACCUM before the last position, at MAX_LEN = 16, and one with the largest length. -/
def mid : State := st .accum [0xAA#8, 6#8, 0x48#8] 6#8 true 16#8
def midMax : State := st .accum [0xAA#8, 255#8] 255#8

theorem witness_DecodeOfEncode : Config.standard.Valid ∧ (Instr.lenok 255#8).wf Config.standard = true ∧
    (Instr.lenok 255#8).selectedIn ⟨Config.standard, .before, false⟩ = true ∧
    encode (.lenok 255#8) ≠ .internal := by decide
theorem witness_EncodeOfDecode : decode ⟨Config.standard, .last, false⟩ 0x2BB#10 = .ok .finBadcrc ∧
    decodeConstant 0x15#8 = .ok .nack := ⟨rfl, rfl⟩
theorem witness_EveryByteSelectsOneOperation : (almost 0xF6#8).Inv ∧ mid.Inv ∧ midMax.Inv ∧ State.reset.Inv ∧
    (st .rlen [0xAA#8] 0#8 true 4#8).Inv := by
  refine ⟨?_, ?_, ?_, ?_, ?_⟩ <;> decide
theorem witness_OperationsRunOnlyWhenSelected : State.reset.Inv ∧
    encode (.skip 0xBB#8) = .dispatch 0x0BB#10 ∧
    exec (.skip 0xBB#8) State.reset = .next { State.reset with outs := [Out.empty] } := ⟨by decide, rfl, rfl⟩
theorem witness_StepRunsDecodedInstruction : mid.cfg.Valid ∧
    decode (decodeCtx mid) (dispatchWord mid.mode 0xBB#8) = .ok (.acc 0xBB#8) := ⟨by decide, rfl⟩
theorem witness_StepWithoutEventChangesNothing : mid.cfg.Valid ∧ mid.rx = [] := by decide
theorem witness_StepIsReferenceStep : (st .seek [] 0#8 false 4#8).cfg.Valid := by decide
theorem witness_ResetEventEntersS0 : mid.cfg.Valid := by decide
theorem witness_StepKeepsInvariants : (rx 0xAA#8 State.reset).Inv ∧
    step (rx 0xAA#8 State.reset) =
      .next { State.reset with mode := .rlen, cnt := 1#8, buf := [(0, 0xAA#8)], outs := [Out.empty] } :=
  ⟨by decide, rfl⟩
theorem witness_StepAlwaysAnswers : (rx 0xBB#8 (almost 0x92#8)).Inv := by decide
theorem witness_StepKeepsBufferCanonical : (rx 0x69#8 mid).buf.wf ∧
    see (step (rx 0x69#8 mid)) State.buf = some [(0, 0xAA#8), (1, 6#8), (2, 0x48#8), (3, 0x69#8)] := by decide
theorem witness_MaxLenNeverChanges : see (exec .ack mid) State.cfg = some ⟨16#8⟩ ∧
    see (step (rx 0x69#8 mid)) State.cfg = some ⟨16#8⟩ := by decide
theorem witness_BufferNeverFullBetweenSteps : (st .accum [0xAA#8, 4#8, 0#8] 4#8 false 4#8).Inv := by decide
theorem witness_SyncStartsFrame : (st .seek [] 0#8 true 4#8).cfg.Valid ∧ (st .seek [] 0#8 true 4#8).mode = .seek := by
  decide
theorem witness_NoiseIsSkipped : State.reset.cfg.Valid ∧ State.reset.mode = .seek ∧
    (0xBB#8 : Byte) ≠ 0xAA#8 ∧ (0xBB#8 : Byte) ≠ 0xB1#8 := by decide
theorem witness_HandshakeIsAnswered : (st .seek [] 0#8 true).cfg.Valid ∧ (st .seek [] 0#8 true).mode = .seek := by
  decide
/-- Both ends of the valid lengths. -/
theorem witness_LengthIsCaptured : (st .rlen [0xAA#8] 0#8 false 16#8).Inv ∧
    (st .rlen [0xAA#8] 0#8 false 16#8).mode = .rlen ∧ 4 ≤ (4#8 : Byte).toNat ∧ (4#8 : Byte).toNat ≤ (16#8 : Byte).toNat ∧
    4 ≤ (16#8 : Byte).toNat ∧ (16#8 : Byte).toNat ≤ (16#8 : Byte).toNat := by decide
/-- The values next to the valid lengths, one for each clause; no byte is under both. -/
theorem witness_LengthIsRejected : (st .rlen [0xAA#8] 0#8 false 16#8).cfg.Valid ∧
    (st .rlen [0xAA#8] 0#8 false 16#8).mode = .rlen ∧
    (3#8 : Byte).toNat < 4 ∧ (16#8 : Byte).toNat < (17#8 : Byte).toNat := by decide
/-- The first and the last position before the end. -/
theorem witness_ByteIsAccumulated : midMax.Inv ∧ midMax.mode = .accum ∧
    midMax.cnt.toNat + 1 < midMax.len.toNat ∧
    (st .accum [0xAA#8, 4#8] 4#8).Inv ∧ (st .accum [0xAA#8, 4#8] 4#8).cnt.toNat + 1 < 4 := by
  refine ⟨?_, ?_, ?_, ?_, ?_⟩ <;> decide
theorem witness_WrongEndIsRejected : (almost 0x00#8).Inv ∧ (almost 0x00#8).mode = .accum ∧
    (almost 0x00#8).cnt.toNat + 1 = (almost 0x00#8).len.toNat ∧ (0xAA#8 : Byte) ≠ 0xBB#8 := by decide
theorem witness_WrongCrcIsRejected : (almost 0x92#8).Inv ∧ (almost 0x92#8).mode = .accum ∧
    (almost 0x92#8).cnt.toNat + 1 = (almost 0x92#8).len.toNat ∧
    (almost 0x92#8).frameCrc ≠ some (crc8 (almost 0x92#8).framePayload) := by decide
/-- A frame with a payload, and the shortest frame. -/
theorem witness_GoodFrameIsAccepted : (almost 0xF6#8).Inv ∧ (almost 0xF6#8).mode = .accum ∧
    (almost 0xF6#8).cnt.toNat + 1 = (almost 0xF6#8).len.toNat ∧
    (almost 0xF6#8).frameCrc = some (crc8 (almost 0xF6#8).framePayload) ∧
    (st .accum [0xAA#8, 4#8, 0#8] 4#8).Inv ∧
    (st .accum [0xAA#8, 4#8, 0#8] 4#8).frameCrc = some (crc8 (st .accum [0xAA#8, 4#8, 0#8] 4#8).framePayload) := by
  refine ⟨?_, ?_, ?_, ?_, ?_, ?_⟩ <;> decide
theorem witness_HandshakeOnlyBetweenFrames : mid.Inv ∧ mid.mode ≠ .seek := by decide
theorem witness_OutcomesHaveTheirCauses : (almost 0xF6#8).Inv ∧ (st .rlen [0xAA#8] 0#8 false 16#8).Inv := by
  refine ⟨?_, ?_⟩ <;> decide
theorem witness_RejectionReportsAndResets :
    see (exec (.lenbad 0#8) (st .rlen [0xAA#8] 0#8)) parser = some (idleP false) ∧
    see (exec (.lenbadHi 17#8) (st .rlen [0xAA#8] 0#8 false 16#8)) parser = some (idleP false) ∧
    see (exec (.finBadend 0#8) (almost 0#8)) parser = some (idleP false) ∧
    see (exec .finBadcrc (almost 0#8)) parser = some (idleP false) := by decide
theorem witness_ExactlyOneReplyPerOutcome :
    see (step (rx 0xBB#8 (almost 0xF6#8))) (fun t => txOf t.outs) = some [0x06#8] ∧
    see (step { mid with rx := [.reset none] }) State.outs = some [] ∧ see (step mid) State.outs = some [] := by decide
theorem witness_NegotiatedGatesNothing :
    see (exec .sync State.reset) State.negotiated = some false ∧ (Instr.sync ≠ .hsk ∧ Instr.sync ≠ .handshakeReq) ∧
    see (step (rx 0xB1#8 State.reset)) State.negotiated = some true := by decide
theorem witness_CrcIsLinear : hello.length = [1#8, 2#8, 3#8, 4#8, (5#8 : Byte)].length := by decide
theorem witness_CrcDetectsOneChangedByte : (0x48#8 : Byte) ≠ 0x68#8 := by decide
theorem witness_ReceivedConstantsAreTheirByte : (almost 0xF6#8).Inv ∧ State.reset.Inv := by
  refine ⟨?_, ?_⟩ <;> decide
theorem witness_NonStoringFrame :
    see (exec .hsk State.reset) State.buf = some [] ∧ see (exec (.skip 0#8) State.reset) State.buf = some [] ∧
    see (exec (.crcByte 1#8) mid) State.buf = some mid.buf ∧ see (exec .nack mid) State.buf = some mid.buf := by decide
theorem witness_AppendingFrame :
    see (exec (.lenok 4#8) (st .rlen [0xAA#8] 0#8)) State.bytes = some [0xAA#8, 4#8] ∧
    see (exec (.acc 0#8) mid) State.bytes = some [0xAA#8, 6#8, 0x48#8, 0#8] := by decide
theorem witness_SyncFrame : see (exec .sync State.reset) State.buf = some [(0, 0xAA#8)] := by decide
theorem witness_TerminalFrame :
    see (exec .finOk (almost 0xF6#8)) State.buf = some [] ∧ see (exec .finBadcrc (almost 1#8)) State.buf = some [] ∧
    see (exec (.lenbad 1#8) (st .rlen [0xAA#8] 0#8)) State.buf = some [] := by decide
/-- The largest payload at MAX_LEN = 9, and the empty one at MAX_LEN = 4. -/
theorem witness_WellFormedFrameIsAccepted : (st .seek [] 0#8 true 9#8).Idle ∧
    hello.length + 4 ≤ (st .seek [] 0#8 true 9#8).cfg.maxLen.toNat ∧
    (st .seek [] 0#8 true 4#8).Idle ∧ ([] : List Byte).length + 4 ≤ (st .seek [] 0#8 true 4#8).cfg.maxLen.toNat := by
  refine ⟨?_, ?_, ?_, ?_⟩ <;> decide
theorem witness_FrameWithWrongCrcIsRejected : State.reset.Idle ∧ hello.length + 4 ≤ State.reset.cfg.maxLen.toNat ∧
    0x92#8 ≠ crc8 hello := by decide
theorem witness_FrameWithWrongEndIsRejected : State.reset.Idle ∧ hello.length + 4 ≤ State.reset.cfg.maxLen.toNat ∧
    (0xAA#8 : Byte) ≠ 0xBB#8 := by decide
theorem witness_BackToBackFramesAreAccepted : State.reset.Idle ∧
    ∀ p ∈ [hello, [], [0xAA#8, 0xBB#8, 0xB1#8]], p.length + 4 ≤ State.reset.cfg.maxLen.toNat := by decide
theorem witness_NoiseBeforeTrafficIsInvisible : State.reset.Idle ∧
    ∀ b ∈ [0#8, 1#8, 2#8, 0xBB#8], b ≠ (0xAA#8 : Byte) ∧ b ≠ 0xB1#8 := by decide
theorem witness_EveryHandshakeIsAnswered : State.reset.Idle ∧ 1 ≤ 3 := by decide
theorem witness_StalledAttemptStaysSilent : mid.Inv ∧ mid.mode = .accum ∧
    mid.cnt.toNat + [0xB1#8, (0xAA#8 : Byte)].length < mid.len.toNat := by decide
theorem witness_FrameAttemptIsBounded : (st .rlen [0xAA#8] 0#8 false 4#8).Inv ∧
    (st .rlen [0xAA#8] 0#8 false 4#8).mode = .rlen ∧
    [4#8, 0#8, (0xBB#8 : Byte)].length + 1 = (st .rlen [0xAA#8] 0#8 false 4#8).cfg.maxLen.toNat := by decide
theorem witness_RepliesAreCounted : mid.Inv := by decide
theorem witness_RepliesAreTheThreeBytes :
    see (run [.byte 0xB1#8, .reset none, .byte 0xAA#8, .byte 0#8] State.reset) (fun t => txOf t.outs)
      = some [0x55#8, 0x15#8] := by decide
theorem witness_NegotiatedRecordsHandshakes :
    see (run (received [0xAA#8, 0#8, 0xB1#8]) State.reset) State.negotiated = some true := by decide

end Sys2Proof.Tests
end

/-!
PROOFS. The scope (00_scope.md): MAX_LEN is a constant of the engine and outside its range there is no engine, and the
three reply bytes.
-/

namespace Sys2Proof.Machine

/-! ## The reference step is one byte-driven operation -/

/-- What holds of every byte-driven operation, and of the refusal where no row applies, holds of the reference step. -/
theorem receive_elim {P : Result → Prop} (b : Byte) {s : State}
    (hop : ∀ i w, encode i = .dispatch w → P (exec i s)) (hno : P (.refused .noOperation)) : P (receive b s) := by
  unfold receive
  split
  · split
    · exact hop .sync _ rfl
    · split
      · exact hop .hsk _ rfl
      · exact hop (.skip b) _ rfl
  · split
    · exact hop (.lenbad b) _ rfl
    · split
      · exact hop (.lenbadHi b) _ rfl
      · exact hop (.lenok b) _ rfl
  · split
    · exact hop (.acc b) _ rfl
    · split
      · exact hop (.finBadend b) _ rfl
      · split
        · exact hop .finOk _ rfl
        · exact hop .finBadcrc _ rfl
    · exact hno

/-! ## What an instruction can refuse for -/

theorem refused_ne_refused {a r : Refusal} (h : r ≠ a) : (Host.Outcome.refused a : Result) ≠ .refused r :=
  fun e => h (by cases e; rfl)

theorem whenSelected_ne_refused {p : Prop} [Decidable p] {k : Result} {r : Refusal} (hr : r ≠ .notSelected)
    (hk : k ≠ .refused r) : whenSelected p k ≠ .refused r := by
  by_cases h : p
  · rwa [whenSelected_of h]
  · rw [whenSelected_of_not h]
    exact refused_ne_refused hr

theorem orFault_ne_refused {α : Type} {x : Except Fault α} {k : α → Result} {r : Refusal}
    (hk : ∀ a, k a ≠ .refused r) : orFault x k ≠ .refused r := by
  cases x with
  | ok a => exact hk a
  | error f => exact nofun

/-- A byte-driven operation refuses only where its row is not selected (log 6). -/
theorem exec_ne_refused_of_dispatch {i : Instr} {w : BitVec 10} (h : encode i = .dispatch w) (s : State) {r : Refusal}
    (hr : r ≠ .notSelected) : exec i s ≠ .refused r := by
  cases i <;> simp only [encode, reduceCtorEq] at h
  case hsk | skip | lenbad | lenbadHi => exact whenSelected_ne_refused hr nofun
  case sync | lenok | acc => exact whenSelected_ne_refused hr (orFault_ne_refused fun _ => nofun)
  case finBadend | finBadcrc | finOk =>
    exact whenSelected_ne_refused hr (orFault_ne_refused fun _ => whenSelected_ne_refused hr nofun)

/-- An instruction refuses for a row that is not selected (log 6) or for want of a row (log 7), and for nothing else. -/
theorem exec_ne_refused (i : Instr) (s : State) {r : Refusal} (hs : r ≠ .notSelected) (hn : r ≠ .noOperation) :
    exec i s ≠ .refused r := by
  cases i with
  | crcInit | crcBit | crcByte | crcCompute | crcCheck | handshakeResp | ack | nack => exact nofun
  | header | endMarker | handshakeReq =>
    exact receive_elim (P := (· ≠ .refused r)) _ (fun _ _ h => exec_ne_refused_of_dispatch h s hs)
      (refused_ne_refused hn)
  | sync | hsk | skip | lenbad | lenbadHi | lenok | acc | finBadend | finBadcrc | finOk =>
    exact exec_ne_refused_of_dispatch rfl s hs

theorem executeByte_ne_refused (b : Byte) (s : State) {r : Refusal} (hs : r ≠ .notSelected) (hn : r ≠ .noOperation) :
    executeByte b s ≠ .refused r := by
  unfold executeByte
  split
  · exact exec_ne_refused _ s hs hn
  · exact refused_ne_refused hn

/-- With an admitted MAX_LEN the step never refuses for MAX_LEN. -/
theorem step_ne_maxLenOutOfRange {s : State} (hv : s.cfg.Valid) : step s ≠ .refused .maxLenOutOfRange := by
  cases h : s.rx with
  | nil => rw [step_nil h hv]; exact nofun
  | cons e rest =>
    rw [step_cons h]
    cases e with
    | reset c => rw [handleEvent_reset (s := { s with rx := rest }) hv]; exact nofun
    | byte b =>
      rw [handleEvent_byte (s := { s with rx := rest }) hv]
      exact executeByte_ne_refused b _ nofun nofun

/-! ## MAX_LEN is constant -/

/-- The byte-driven operations. -/
theorem exec_next_cfg_of_dispatch {i : Instr} {w : BitVec 10} (h : encode i = .dispatch w) {s t : State}
    (ht : exec i s = .next t) : t.cfg = s.cfg := by
  cases i <;> simp only [encode, reduceCtorEq] at h
  case sync => obtain ⟨-, rfl⟩ := execSync_next.1 ht; rfl
  case hsk => obtain ⟨-, rfl⟩ := execHsk_next.1 ht; rfl
  case skip => obtain ⟨-, rfl⟩ := execSkip_next.1 ht; rfl
  case lenbad => obtain ⟨-, rfl⟩ := execLenbad_next.1 ht; rfl
  case lenbadHi => obtain ⟨-, rfl⟩ := execLenbadHi_next.1 ht; rfl
  case lenok => obtain ⟨-, rfl⟩ := execLenok_next.1 ht; rfl
  case acc => obtain ⟨-, rfl⟩ := execAcc_next.1 ht; rfl
  case finBadend => obtain ⟨-, -, rfl⟩ := execFinBadend_next.1 ht; rfl
  case finBadcrc => obtain ⟨-, -, rfl⟩ := execFinBadcrc_next.1 ht; rfl
  case finOk => obtain ⟨-, f, -, -, rfl⟩ := execFinOk_next.1 ht; rfl

@[simp] theorem crcBits_cfg (n : Nat) (s : State) : (crcBits n s).cfg = s.cfg := by rw [crcBits_eq, setCrc_cfg]

@[simp] theorem crcTake_cfg (s : State) (d : Byte) : (crcTake s d).cfg = s.cfg := by rw [crcTake_eq, setCrc_cfg]

@[simp] theorem crcRun_cfg (bs : List Byte) (s : State) : (crcRun bs s).cfg = s.cfg := by rw [crcRun_eq, setCrc_cfg]

/-- Every instruction. -/
theorem exec_next_cfg {i : Instr} {s t : State} (ht : exec i s = .next t) : t.cfg = s.cfg := by
  cases i with
  | crcInit | handshakeResp | ack | nack => cases ht; rfl
  | crcBit => cases ht; exact crcBits_cfg 1 s
  | crcByte d => cases ht; exact crcTake_cfg s d
  | crcCompute bs => cases ht; exact crcRun_cfg bs s
  | crcCheck p c => cases ht; exact crcRun_cfg p s
  | header | endMarker | handshakeReq =>
    exact receive_elim (P := fun x => x = .next t → t.cfg = s.cfg) _
      (fun _ _ h => exec_next_cfg_of_dispatch h) nofun ht
  | sync | hsk | skip | lenbad | lenbadHi | lenok | acc | finBadend | finBadcrc | finOk =>
    exact exec_next_cfg_of_dispatch rfl ht

/-- One event, RESET included (R201). -/
theorem handleEvent_next_cfg {e : RxEvent} {s t : State} (ht : handleEvent e s = .next t) : t.cfg = s.cfg := by
  obtain ⟨-, ⟨c, -, rfl⟩ | ⟨b, -, hb⟩⟩ := handleEvent_next.1 ht
  · exact resetEvent_cfg s
  · obtain ⟨i, -, hi⟩ := executeByte_next.1 hb
    exact exec_next_cfg hi

theorem step_next_cfg {s t : State} (ht : step s = .next t) : t.cfg = s.cfg := by
  obtain ⟨-, -, rfl⟩ | ⟨e, rest, -, he⟩ := step_next.1 ht
  · rfl
  · exact handleEvent_next_cfg (s := { s with rx := rest }) he

/-! ## The obligations -/

/-- Settles O8: outside the range the step refuses before it looks at RX, and inside it no operation refuses so. -/
theorem stepRefusesExactlyInvalidMaxLen : Obligations.StepRefusesExactlyInvalidMaxLen := fun _ =>
  ⟨fun h hv => step_ne_maxLenOutOfRange hv h, step_invalid⟩

/-- Settles O15, from the frame of each instruction and of RESET. -/
theorem maxLenNeverChanges : Obligations.MaxLenNeverChanges :=
  ⟨fun _ _ _ => exec_next_cfg, fun _ _ => step_next_cfg⟩

/-- Settles O41: each of the three is `emit_tx` of its byte by definition (log 9). -/
theorem sentConstantsEmitTheirByte : Obligations.SentConstantsEmitTheirByte := fun _ => ⟨rfl, rfl, rfl⟩

end Sys2Proof.Machine

/-!
PROOFS. The state (10_state.md): the reset state, the invariants of R27 and the canonical form of the buffer under every
step, and what `negotiated` records over a run of bytes.
-/

namespace Sys2Proof.Machine

/-! ## What a received byte can do -/

/-- A rejection leaves the parser idle, with the outcome and its reply in one record (R173, R152). -/
theorem raise_eq_idleWith (r : Rejection) (s : State) :
    raise r s = s.idleWith { tx := some (reply r.outcome), outcome := some r.outcome } := by
  rw [reply_outcome, raise_eq]; rfl

/-- So does the accepting completion (R121, R152). -/
theorem accept_eq_idleWith (p : List Byte) (s : State) :
    accept p s = s.idleWith { tx := some (reply (.accepted p)), outcome := some (.accepted p) } := rfl

/-- The next states of a received byte `b` in state `s`, by the rows of R68. The operations that end a frame attempt are
one case, told apart by their outcome alone. -/
inductive ByteEffect (b : Byte) (s : State) : State → Prop
  | skip (hm : s.mode = .seek) (hb : b ≠ Wire.header ∧ b ≠ Wire.handshakeReq) : ByteEffect b s (emit Out.empty s)
  | hsk (hm : s.mode = .seek) (hb : b = Wire.handshakeReq) :
      ByteEffect b s (emit { tx := some Wire.handshakeResp, hs := true } (setNegotiated s))
  | sync (hm : s.mode = .seek) (hb : b = Wire.header) :
      ByteEffect b s (emit Out.empty { s with mode := .rlen, cnt := 1#8, buf := [(0, Wire.header)] })
  | lenok (hm : s.mode = .rlen) (hb : s.cfg.LenValid b) :
      ByteEffect b s (emit Out.empty
        { s with mode := .accum, len := b, buf := s.buf.write s.cnt.toNat b, cnt := s.cnt + 1#8 })
  | acc (hm : s.mode = .accum) (hp : s.cnt.toNat + 1 < s.len.toNat) :
      ByteEffect b s (emit Out.empty { s with buf := s.buf.write s.cnt.toNat b, cnt := s.cnt + 1#8 })
  | finish (o : PacketOutcome) (hm : s.mode ≠ .seek) :
      ByteEffect b s (s.idleWith { tx := some (reply o), outcome := some o })

theorem ByteEffect.raise {b : Byte} {s : State} (r : Rejection) (hm : s.mode ≠ .seek) :
    ByteEffect b s (Machine.raise r s) := by
  rw [raise_eq_idleWith]; exact .finish r.outcome hm

/-- The operations the map selects in SEEK (R69). -/
theorem exec_decodeSeek_effect {b : Byte} {s t : State} (h : exec (decodeSeek b) s = .next t) :
    ByteEffect b s t := by
  unfold decodeSeek at h
  split at h
  · rename_i hb
    obtain ⟨⟨hm, -⟩, rfl⟩ := execSync_next.1 h
    exact .sync hm hb
  · split at h
    · rename_i hb
      obtain ⟨hm, rfl⟩ := execHsk_next.1 h
      exact .hsk hm hb
    · obtain ⟨⟨hm, hb⟩, rfl⟩ := execSkip_next.1 h
      exact .skip hm hb

/-- The operations the map selects in RLEN (R70). -/
theorem exec_decodeLength_effect {b : Byte} {c : Config} {s t : State} (h : exec (decodeLength c b) s = .next t) :
    ByteEffect b s t := by
  unfold decodeLength at h
  split at h
  · obtain ⟨⟨hm, -⟩, rfl⟩ := execLenbad_next.1 h
    exact .raise _ (by simp [hm])
  · split at h
    · obtain ⟨⟨hm, -⟩, rfl⟩ := execLenbadHi_next.1 h
      exact .raise _ (by simp [hm])
    · obtain ⟨⟨hm, hb, -⟩, rfl⟩ := execLenok_next.1 h
      exact .lenok hm hb

/-- The operations the map selects in ACCUM (R71). -/
theorem exec_decodeAccum_effect {b : Byte} {x : DecodeCtx} {i : Instr} {s t : State} (hd : decodeAccum x b = .ok i)
    (h : exec i s = .next t) : ByteEffect b s t := by
  unfold decodeAccum at hd
  split at hd
  · cases hd
    obtain ⟨⟨hm, hp, -⟩, rfl⟩ := execAcc_next.1 h
    exact .acc hm (position_before.1 hp)
  · cases hd
    split at h
    · obtain ⟨⟨hm, -⟩, -, rfl⟩ := execFinBadend_next.1 h
      exact .raise _ (by simp [hm])
    · split at h
      · obtain ⟨⟨hm, -⟩, f, -, -, rfl⟩ := execFinOk_next.1 h
        exact .finish (.accepted f.payload) (by simp [hm])
      · obtain ⟨⟨hm, -⟩, -, rfl⟩ := execFinBadcrc_next.1 h
        exact .raise _ (by simp [hm])
  · cases hd

/-- A byte that is handled has one of these effects. -/
theorem executeByte_effect {b : Byte} {s t : State} (h : executeByte b s = .next t) : ByteEffect b s t := by
  obtain ⟨i, hd, hi⟩ := executeByte_next.1 h
  cases hm : s.mode with
  | seek =>
    cases (decode_of_seek hm b).symm.trans hd
    exact exec_decodeSeek_effect hi
  | rlen =>
    cases (decode_of_rlen hm b).symm.trans hd
    exact exec_decodeLength_effect hi
  | accum => exact exec_decodeAccum_effect ((decode_of_accum hm b).symm.trans hd) hi

/-- What holds of `s`, of RESET and of every effect of a byte holds of whatever a step from `s` answers. `r` is the rest
of RX: the step takes the event off the stream before it is handled. -/
theorem step_elim {P : State → Prop} {s t : State} (h : step s = .next t) (hs : P s)
    (hreset : ∀ r, P (resetEvent { s with rx := r }))
    (hbyte : ∀ b r u, ByteEffect b { s with rx := r } u → P u) : P t := by
  obtain ⟨-, -, rfl⟩ | ⟨e, rest, -, he⟩ := step_next.1 h
  · exact hs
  · obtain ⟨-, ⟨c, -, rfl⟩ | ⟨b, -, hb⟩⟩ := handleEvent_next.1 he
    · exact hreset rest
    · exact hbyte b rest t (executeByte_effect hb)

/-! ## The invariants of R27 -/

/-- In SEEK the invariants say that the parser is idle and MAX_LEN in its range (R28). -/
theorem inv_of_seek {s : State} (hv : s.cfg.Valid) (hm : s.mode = .seek) (h : s.SeekInv) : s.Inv :=
  ⟨hv, fun _ => h, fun e => Mode.noConfusion (hm.symm.trans e), fun e => Mode.noConfusion (hm.symm.trans e)⟩

theorem inv_reset : State.reset.Inv := inv_of_seek (by decide) rfl ⟨rfl, rfl, rfl⟩

/-- RESET establishes them from any state (R201). -/
theorem inv_resetEvent {s : State} (hv : s.cfg.Valid) : (resetEvent s).Inv := inv_of_seek hv rfl ⟨rfl, rfl, rfl⟩

/-- Output records and the handshake flag play no part in them. -/
theorem inv_emit {s : State} (hi : s.Inv) (o : Out) : (emit o s).Inv := hi

theorem inv_setNegotiated {s : State} (hi : s.Inv) : (setNegotiated s).Inv := hi

/-- The buffer `[AA]`, begun from an idle parser (R112). -/
theorem inv_sync {s : State} (hi : s.Inv) (hm : s.mode = .seek) :
    ({ s with mode := .rlen, cnt := 1#8, buf := [(0, Wire.header)] } : State).Inv := by
  obtain ⟨hv, hseek, -, -⟩ := hi
  obtain ⟨-, -, hlen⟩ := hseek hm
  exact ⟨hv, nofun, fun _ => ⟨rfl, rfl, hlen⟩, nofun⟩

/-- A valid length makes of `[AA]` the buffer `[AA, len]`, at least two bytes short of its end (R114). -/
theorem inv_lenok {s : State} (hi : s.Inv) (hm : s.mode = .rlen) {b : Byte} (hb : s.cfg.LenValid b) :
    ({ s with mode := .accum, len := b, buf := s.buf.write s.cnt.toNat b, cnt := s.cnt + 1#8 } : State).Inv := by
  obtain ⟨hv, -, hrlen, -⟩ := hi
  obtain ⟨hcnt, hbuf, -⟩ := hrlen hm
  obtain ⟨hlo, hhi⟩ := hb
  rw [hcnt, hbuf]
  refine ⟨hv, nofun, nofun, fun _ => ⟨hlo, hhi, le_rfl, ?_, rfl, rfl, rfl⟩⟩
  show 2 + 1 ≤ b.toNat
  omega

/-- One more byte of the frame before its last: the write is at the end of the buffer (R116). -/
theorem inv_acc {s : State} (hi : s.Inv) (hm : s.mode = .accum) (hp : s.cnt.toNat + 1 < s.len.toNat) (b : Byte) :
    ({ s with buf := s.buf.write s.cnt.toNat b, cnt := s.cnt + 1#8 } : State).Inv := by
  obtain ⟨-, -, -, -, hrange, -, -⟩ := hi.2.2.2 hm
  rw [Memory.write_range_end b hrange]
  exact inv_accumulate hi hm hp b s.outs

theorem ByteEffect.keeps_inv {b : Byte} {s t : State} (h : ByteEffect b s t) (hi : s.Inv) : t.Inv := by
  cases h with
  | skip => exact inv_emit hi _
  | hsk => exact inv_emit (inv_setNegotiated hi) _
  | sync hm => exact inv_emit (inv_sync hi hm) _
  | lenok hm hb => exact inv_emit (inv_lenok hi hm hb) _
  | acc hm hp => exact inv_emit (inv_acc hi hm hp b) _
  | finish => exact inv_idleWith hi.1 _

/-- The buffer's size as the register `cnt` gives it (R20, R22), in every mode. -/
theorem State.Inv.bytes_length {s : State} (hi : s.Inv) : s.bytes.length = s.cnt.toNat := by
  obtain ⟨-, hseek, hrlen, haccum⟩ := hi
  cases hm : s.mode with
  | seek =>
    obtain ⟨hcnt, hbuf, -⟩ := hseek hm
    rw [State.bytes, hcnt, hbuf]; rfl
  | rlen =>
    obtain ⟨hcnt, hbuf, -⟩ := hrlen hm
    rw [State.bytes, hcnt, hbuf]; rfl
  | accum => exact (haccum hm).bytes_length

/-- Room for one more byte (R27 item 4). -/
theorem State.Inv.cnt_lt_maxLen {s : State} (hi : s.Inv) : s.cnt.toNat < s.cfg.maxLen.toNat := by
  obtain ⟨⟨hv, -⟩, hseek, hrlen, haccum⟩ := hi
  cases hm : s.mode with
  | seek =>
    obtain ⟨hcnt, -⟩ := hseek hm
    rw [hcnt]; exact Nat.lt_of_lt_of_le (by decide) hv
  | rlen =>
    obtain ⟨hcnt, -⟩ := hrlen hm
    rw [hcnt]; exact Nat.lt_of_lt_of_le (by decide) hv
  | accum =>
    obtain ⟨-, hmax, -, hcnt, -⟩ := haccum hm
    exact Nat.lt_of_lt_of_le hcnt hmax

/-! ## The canonical form of the buffer -/

theorem ByteEffect.keeps_wf {b : Byte} {s t : State} (h : ByteEffect b s t) (hs : s.buf.wf) : t.buf.wf := by
  cases h with
  | skip | hsk => exact hs
  | sync => exact List.pairwise_singleton _ _
  | lenok | acc => exact Memory.write_wf _ _ _ hs
  | finish => exact nil_wf

/-! ## What `negotiated` records -/

/-- One record a byte (R151), and the flag set exactly by a handshake answered (R141). -/
theorem ByteEffect.outs_negotiated {b : Byte} {s t : State} (h : ByteEffect b s t) :
    ∃ o, t.outs = s.outs ++ [o] ∧ t.negotiated = (s.negotiated || o.hs) := by
  cases h with
  | hsk => exact ⟨_, rfl, (Bool.or_true _).symm⟩
  | skip | sync | lenok | acc | finish => exact ⟨_, rfl, (Bool.or_false _).symm⟩

/-- A run that answers handled its first event and ran over the others from there (R157). -/
theorem run_cons_eq_next {e : RxEvent} {es : List RxEvent} {s t : State} :
    run (e :: es) s = .next t ↔ ∃ u, handleEvent e s = .next u ∧ run es u = .next t := by
  rw [run]
  cases handleEvent e s <;> simp

theorem run_received_negotiated (bs : List Byte) {s t : State} (h : run (received bs) s = .next t) :
    ∃ os, t.outs = s.outs ++ os ∧ t.negotiated = (s.negotiated || os.any Out.hs) := by
  induction bs generalizing s with
  | nil =>
    cases h
    exact ⟨[], (List.append_nil _).symm, (Bool.or_false _).symm⟩
  | cons b bs ih =>
    obtain ⟨u, hb, hrun⟩ := run_cons_eq_next.1 h
    obtain ⟨-, ⟨c, hc, -⟩ | ⟨b', -, hb'⟩⟩ := handleEvent_next.1 hb
    · cases hc
    · obtain ⟨o, houts, hneg⟩ := (executeByte_effect hb').outs_negotiated
      obtain ⟨os, houts', hneg'⟩ := ih hrun
      refine ⟨o :: os, ?_, ?_⟩
      · rw [houts', houts, List.append_assoc]; rfl
      · rw [hneg', hneg, List.any_cons, Bool.or_assoc]

/-! ## The obligations -/

/-- Settles O12: an idle parser after RESET, and one lemma for each effect of a byte. -/
theorem stepKeepsInvariants : Obligations.StepKeepsInvariants := fun _ _ hi h =>
  step_elim (P := State.Inv) h hi (fun _ => inv_resetEvent hi.1) fun _ _ _ hb => hb.keeps_inv hi

/-- Settles O14: the buffer is kept, emptied, begun anew, or written by `Memory.write`. -/
theorem stepKeepsBufferCanonical : Obligations.StepKeepsBufferCanonical := fun _ _ hs h =>
  step_elim (P := fun u => u.buf.wf) h hs (fun _ => nil_wf) fun _ _ _ hb => hb.keeps_wf hs

/-- Settles O16, mode by mode from the invariants. -/
theorem bufferNeverFullBetweenSteps : Obligations.BufferNeverFullBetweenSteps := fun _ hi =>
  ⟨hi.bytes_length, hi.cnt_lt_maxLen⟩

/-- Settles O59, by induction on the bytes: each adds one record and moves the flag by that record's handshake mark. -/
theorem negotiatedRecordsHandshakes : Obligations.NegotiatedRecordsHandshakes := fun bs _ _ =>
  run_received_negotiated bs

/-- Settles O10: the fields as `State.reset` writes them, and the invariants of an idle parser. -/
theorem resetStateIsS0 : Obligations.ResetStateIsS0 := ⟨rfl, rfl, rfl, rfl, rfl, inv_reset⟩

end Sys2Proof.Machine

/-!
PROOFS. The memory and the streams (20_memory.md): what the storing operations leave unchanged, the inbound stream read
once and in order, and the bytes that can stand on TX.
-/

namespace Sys2Proof.Machine

/-! ## The byte stored -/

/-- Within the capacity, a write at `cnt` leaves every other index as before and `cnt` rises with no wrap-around (R42). -/
theorem write_at_cnt {s : State} (hcap : s.cnt.toNat < s.cfg.maxLen.toNat) (b : Byte) :
    (∀ a, (s.buf.write s.cnt.toNat b).read a = if a = s.cnt.toNat then some b else s.buf.read a) ∧
      (s.cnt + 1#8).toNat = s.cnt.toNat + 1 := by
  have happ := append_ok (v := b).2 ⟨hcap, rfl⟩
  exact ⟨append_read happ, append_cnt happ⟩

/-! ## The inbound stream -/

/-- A byte whose dispatch word decodes runs the operation decoded (R67). -/
theorem executeByte_of_decode {b : Byte} {s : State} {i : Instr}
    (h : decode (decodeCtx s) (dispatchWord s.mode b) = .ok i) : executeByte b s = exec i s := by
  rw [executeByte, h]

/-- A run neither reads nor writes what waits on RX (R44). -/
theorem run_withRx (es : List RxEvent) (s : State) (r : List RxEvent) :
    run es (s.withRx r) = mapNext (State.withRx r) (run es s) := by
  induction es generalizing s with
  | nil => rfl
  | cons e es ih =>
    rw [run, run, handleEvent_withRx]
    cases handleEvent e s with
    | next u => exact ih u
    | fault f => rfl
    | refused f => rfl

/-- Stepping over `es`, with `r` behind them on RX, is the run over `es` (R157): each step takes one event off RX, and
both remainders are kept by what handles it. -/
theorem steps_withRx_append (es r : List RxEvent) (s : State) :
    steps es.length (s.withRx (es ++ r)) = run es (s.withRx r) := by
  induction es generalizing s with
  | nil => rfl
  | cons e es ih =>
    have hstep : step (s.withRx (e :: es ++ r)) = handleEvent e (s.withRx (es ++ r)) := step_cons rfl
    rw [List.length_cons, steps, run, hstep, handleEvent_withRx e s (es ++ r), handleEvent_withRx e s r]
    cases handleEvent e s with
    | next u => exact ih u
    | fault f => rfl
    | refused f => rfl

/-- Continue from the next state; a fault or a refusal stays. -/
def andThen : Result → (State → Result) → Result
  | .next t, k => k t
  | .fault f, _ => .fault f
  | .refused r, _ => .refused r

/-- `m + n` steps are `m` steps and then `n`. -/
theorem steps_add (m n : Nat) (s : State) : steps (m + n) s = andThen (steps m s) (steps n) := by
  induction m generalizing s with
  | zero => rw [Nat.zero_add]; rfl
  | succ m ih =>
    rw [Nat.succ_add, steps, steps]
    cases step s with
    | next t => exact ih t
    | fault f => rfl
    | refused f => rfl

/-! ## What stands on TX -/

/-- The bytes this engine sends (R62, R64): HANDSHAKE_RESP, ACK, NACK. -/
abbrev IsReply (v : Byte) : Prop := v = 0x55#8 ∨ v = 0x06#8 ∨ v = 0x15#8

theorem reply_isReply (o : PacketOutcome) : IsReply (reply o) := by
  cases o with
  | accepted => exact .inr (.inl rfl)
  | rejectedBadFraming | rejectedLengthMismatch | rejectedCrcMismatch => exact .inr (.inr rfl)

/-- From `s` to `t` only records were added, and these put replies alone on TX. -/
def AddsReplies (s t : State) : Prop := ∃ os, t.outs = s.outs ++ os ∧ ∀ v ∈ txOf os, IsReply v

theorem AddsReplies.of_outs_eq {s t : State} (h : t.outs = s.outs) : AddsReplies s t :=
  ⟨[], by rw [h, List.append_nil], nofun⟩

theorem AddsReplies.of_silent {s t : State} {o : Out} (h : t.outs = s.outs ++ [o]) (ho : o.tx = none) :
    AddsReplies s t :=
  ⟨[o], h, by simp [txOf, ho]⟩

theorem AddsReplies.of_reply {s t : State} {o : Out} {v : Byte} (h : t.outs = s.outs ++ [o]) (ho : o.tx = some v)
    (hv : IsReply v) : AddsReplies s t :=
  ⟨[o], h, by simpa [txOf, ho] using hv⟩

theorem AddsReplies.trans {s t u : State} (h : AddsReplies s t) (h' : AddsReplies t u) : AddsReplies s u := by
  obtain ⟨os, houts, hos⟩ := h
  obtain ⟨os', houts', hos'⟩ := h'
  refine ⟨os ++ os', by rw [houts', houts, List.append_assoc], fun v hv => ?_⟩
  rw [txOf, List.filterMap_append, List.mem_append] at hv
  exact hv.elim (hos v) (hos' v)

/-- A byte sends nothing, 0x55 for a handshake request, or the reply of the outcome that ends an attempt (R152). -/
theorem ByteEffect.addsReplies {b : Byte} {s t : State} (h : ByteEffect b s t) : AddsReplies s t := by
  cases h with
  | skip | sync | lenok | acc => exact .of_silent rfl rfl
  | hsk => exact .of_reply rfl rfl (.inl rfl)
  | finish o => exact .of_reply rfl rfl (reply_isReply o)

theorem handleEvent_addsReplies {e : RxEvent} {s t : State} (h : handleEvent e s = .next t) : AddsReplies s t := by
  obtain ⟨-, ⟨c, -, rfl⟩ | ⟨b, -, hb⟩⟩ := handleEvent_next.1 h
  · exact .of_outs_eq (resetEvent_outs s)
  · exact (executeByte_effect hb).addsReplies

theorem run_addsReplies (es : List RxEvent) {s t : State} (h : run es s = .next t) : AddsReplies s t := by
  induction es generalizing s with
  | nil => cases h; exact .of_outs_eq rfl
  | cons e es ih =>
    obtain ⟨u, he, hes⟩ := run_cons_eq_next.1 h
    exact (handleEvent_addsReplies he).trans (ih hes)

/-! ## The obligations -/

/-- Settles O6: the step takes the byte off RX, whose remainder plays no part in what the byte selects. -/
theorem stepRunsDecodedInstruction : Obligations.StepRunsDecodedInstruction := fun s b r i hv hd =>
  calc step { s with rx := .byte b :: r }
    _ = handleEvent (.byte b) { s with rx := r } := step_cons rfl
    _ = executeByte b { s with rx := r } := handleEvent_byte (s := { s with rx := r }) hv b
    _ = exec i { s with rx := r } := executeByte_of_decode (by rw [decodeCtx_rx]; exact hd)

/-- Settles O44: both operations write the buffer and move `cnt` as `append` does (R42). -/
theorem appendingFrame : Obligations.AppendingFrame := by
  intro b s t
  constructor
  · intro h
    obtain ⟨⟨-, -, hcap⟩, rfl⟩ := execLenok_next.1 h
    obtain ⟨hread, hcnt⟩ := write_at_cnt hcap b
    exact ⟨hread, hcnt, rfl, rfl, rfl, rfl, rfl, rfl, rfl, rfl⟩
  · intro h
    obtain ⟨⟨-, -, hcap⟩, rfl⟩ := execAcc_next.1 h
    obtain ⟨hread, hcnt⟩ := write_at_cnt hcap b
    exact ⟨hread, hcnt, rfl, rfl, rfl, rfl, rfl, rfl, rfl, rfl⟩

/-- Settles O45: SYNC writes the emptied buffer as `append` does (R112). -/
theorem syncFrame : Obligations.SyncFrame := by
  intro s t h
  obtain ⟨⟨-, hcap⟩, rfl⟩ := execSync_next.1 h
  obtain ⟨hread, -⟩ := write_at_cnt (s := clearBuffer s) hcap Wire.header
  exact ⟨hread, rfl, rfl, rfl, rfl, rfl, rfl, rfl, rfl⟩

/-- Settles O48, by induction on the events. -/
theorem stepsAreTheRunOverRx : Obligations.StepsAreTheRunOverRx := steps_withRx_append

/-- Settles O47: with `y` behind them on RX or with nothing, the steps over `x` are the same run, which leaves RX alone. -/
theorem chunksDoNotMatter : Obligations.ChunksDoNotMatter := by
  intro x y s
  have hwhole : steps x.length { s with rx := x ++ y } = mapNext (State.withRx y) (run x s) :=
    (steps_withRx_append x y s).trans (run_withRx x s y)
  have hchunk : steps x.length { s with rx := x } = mapNext (State.withRx []) (run x s) := by
    rw [← run_withRx, ← steps_withRx_append, List.append_nil]
  rw [steps_add, hwhole, hchunk]
  cases run x s with
  | next t => rfl
  | fault f => rfl
  | refused e => rfl

/-- Settles O58, by induction on the events: each adds replies alone, RESET nothing. -/
theorem repliesAreTheThreeBytes : Obligations.RepliesAreTheThreeBytes := fun es _ _ => run_addsReplies es

end Sys2Proof.Machine

/-!
PROOFS. The encoding (30_encoding.md): decoder and encoder are inverse to each other, every byte selects one operation,
and that operation answers; and, from there, the runs over one frame.
-/

namespace Sys2Proof

/-! ## The decoder and the encoder -/

/-- A dispatch word determines its two fields (R67). -/
theorem dispatchWord_inj {m m' : Mode} {b b' : Byte} :
    dispatchWord m b = dispatchWord m' b' ↔ m = m' ∧ b = b' := by
  constructor
  · intro h
    have hm := congrArg (Mode.ofCode ∘ wordMode) h
    have hb := congrArg wordByte h
    simp only [Function.comp_apply, wordMode_dispatchWord, Mode.ofCode_code, Option.some.injEq] at hm
    simp only [wordByte_dispatchWord] at hb
    exact ⟨hm, hb⟩
  · rintro ⟨rfl, rfl⟩
    rfl

/-- `i` is a row of R68 for the word `w`: it has this word, its operand is in the row's set, the context selects it. -/
abbrev IsRowOf (x : DecodeCtx) (w : BitVec 10) (i : Instr) : Prop :=
  encode i = .dispatch w ∧ i.wf x.cfg = true ∧ i.selectedIn x = true

theorem decodeSeek_isRowOf (x : DecodeCtx) (b : Byte) : IsRowOf x (dispatchWord .seek b) (decodeSeek b) := by
  unfold decodeSeek
  split
  · subst b; exact ⟨rfl, rfl, rfl⟩
  · split
    · subst b; exact ⟨rfl, rfl, rfl⟩
    · exact ⟨rfl, decide_eq_true ⟨‹_›, ‹_›⟩, rfl⟩

theorem decodeLength_isRowOf (x : DecodeCtx) (b : Byte) :
    IsRowOf x (dispatchWord .rlen b) (decodeLength x.cfg b) := by
  unfold decodeLength
  split
  · exact ⟨rfl, decide_eq_true ‹_›, rfl⟩
  · split
    · exact ⟨rfl, decide_eq_true ‹_›, rfl⟩
    · exact ⟨rfl, decide_eq_true ⟨Nat.le_of_not_lt ‹_›, Nat.le_of_not_lt ‹_›⟩, rfl⟩

theorem decodeAccum_isRowOf {x : DecodeCtx} {b : Byte} {i : Instr} (h : decodeAccum x b = .ok i) :
    IsRowOf x (dispatchWord .accum b) i := by
  unfold decodeAccum at h
  split at h
  · rename_i hp
    cases h
    exact ⟨rfl, rfl, decide_eq_true hp⟩
  · rename_i hp
    cases h
    split
    · exact ⟨rfl, decide_eq_true ‹_›, decide_eq_true hp⟩
    · rename_i hb
      cases not_not.1 hb
      split <;> exact ⟨rfl, rfl, by simp [Instr.selectedIn, *]⟩
  · cases h

/-- What the operation map answers is a row for the word. -/
theorem isRowOf_of_decode {x : DecodeCtx} {w : BitVec 10} {i : Instr} (h : decode x w = .ok i) : IsRowOf x w i := by
  cases hm : Mode.ofCode (wordMode w) with
  | none => simp [decode, hm] at h
  | some m =>
    obtain ⟨b, rfl⟩ : ∃ b, w = dispatchWord m b :=
      ⟨wordByte w, (dispatchWord_of_fields (Mode.code_of_ofCode hm).symm).symm⟩
    cases m with
    | seek => cases (decode_seek x b).symm.trans h; exact decodeSeek_isRowOf x b
    | rlen => cases (decode_rlen x b).symm.trans h; exact decodeLength_isRowOf x b
    | accum => exact decodeAccum_isRowOf ((decode_accum x b).symm.trans h)

/-- A row for the word is what the operation map answers: its operand's set excludes the rows of higher priority (for
LENBAD.HI over LENBAD because MAX_LEN is at least 4). -/
theorem decode_of_isRowOf {x : DecodeCtx} {w : BitVec 10} {i : Instr} (hv : x.cfg.Valid) (h : IsRowOf x w i) :
    decode x w = .ok i := by
  obtain ⟨he, hwf, hsel⟩ := h
  cases i <;> cases he
  case sync | hsk => exact decode_seek x _
  case skip b =>
    obtain ⟨hh, hr⟩ := of_decide_eq_true hwf
    rw [decode_seek, decodeSeek, if_neg hh, if_neg hr]
  case lenbad b =>
    rw [decode_rlen, decodeLength, if_pos (of_decide_eq_true hwf)]
  case lenbadHi b =>
    have hhi : x.cfg.maxLen.toNat < b.toNat := of_decide_eq_true hwf
    have hlo : ¬ b.toNat < 4 := (hv.1.trans hhi.le).not_gt
    rw [decode_rlen, decodeLength, if_neg hlo, if_pos hhi]
  case lenok b =>
    obtain ⟨hlo, hhi⟩ := of_decide_eq_true hwf
    rw [decode_rlen, decodeLength, if_neg hlo.not_gt, if_neg hhi.not_gt]
  case acc b =>
    rw [decode_accum, decodeAccum, of_decide_eq_true hsel]
  case finBadend b =>
    rw [decode_accum, decodeAccum, of_decide_eq_true hsel]
    exact congrArg Except.ok (if_pos (of_decide_eq_true hwf))
  case finBadcrc | finOk =>
    obtain ⟨hp, hc⟩ : x.position = .last ∧ _ := by simpa [Instr.selectedIn] using hsel
    rw [decode_accum, decodeAccum, hp, hc]
    rfl

/-- The constants of R62 differ from each other. -/
theorem decodeConstant_eq_ok {v : Byte} {i : Instr} : decodeConstant v = .ok i ↔ encode i = .constant v := by
  constructor
  · intro h
    unfold decodeConstant at h
    split_ifs at h with hv hv hv hv hv hv
    all_goals cases h; exact congrArg Encoding.constant hv.symm
  · intro h
    cases i <;> cases h <;> rfl

theorem decode_eq_ok {x : DecodeCtx} (hv : x.cfg.Valid) {w : BitVec 10} {i : Instr} :
    decode x w = .ok i ↔ IsRowOf x w i :=
  ⟨isRowOf_of_decode, decode_of_isRowOf hv⟩

end Sys2Proof

namespace Sys2Proof.Machine

/-! ## The operation a byte selects -/

/-- The `when` column says of the state what the operation map consults (R67, R68). -/
theorem selects_iff_isRowOf {s : State} (hi : s.Inv) {b : Byte} {i : Instr} :
    Selects s b i ↔ IsRowOf (decodeCtx s) (dispatchWord s.mode b) i := by
  have hcrc : s.mode = .accum → s.cnt.toNat + 1 = s.len.toNat →
      (crcGood s = true ↔ s.frameCrc = some (crc8 s.framePayload)) := fun hm hl => (hi.2.2.2 hm).crcGood_iff hl
  have hword : ∀ m b', encode i = .dispatch (dispatchWord m b') →
      (encode i = .dispatch (dispatchWord s.mode b) ↔ s.mode = m ∧ b = b') := fun m b' h => by
    rw [h, Encoding.dispatch.injEq, dispatchWord_inj, eq_comm, eq_comm (a := b')]
  cases i with
  | sync | hsk => simp [Selects, IsRowOf, hword _ _ rfl, Instr.wf, Instr.selectedIn, Wire.header, Wire.handshakeReq]
  | skip | lenbad | lenbadHi | lenok | finBadend | acc =>
    simp only [Selects, IsRowOf, hword _ _ rfl, Instr.wf, Instr.selectedIn, decodeCtx, decide_eq_true_eq,
      position_before, position_last]
    grind [Wire.header, Wire.handshakeReq, Wire.endMarker]
  | finBadcrc =>
    simp only [Selects, IsRowOf, hword _ _ rfl, Instr.wf, Instr.selectedIn, decodeCtx, decide_eq_true_eq,
      position_last, Bool.and_eq_true, Bool.not_eq_true']
    constructor
    · rintro ⟨hm, hl, hb, hc⟩
      exact ⟨⟨hm, hb⟩, trivial, hl, Bool.eq_false_iff.2 fun hg => hc ((hcrc hm hl).1 hg)⟩
    · rintro ⟨⟨hm, hb⟩, -, hl, hg⟩
      exact ⟨hm, hl, hb, fun hc => Bool.eq_false_iff.1 hg ((hcrc hm hl).2 hc)⟩
  | finOk =>
    simp only [Selects, IsRowOf, hword _ _ rfl, Instr.wf, Instr.selectedIn, decodeCtx, decide_eq_true_eq,
      position_last, Bool.and_eq_true]
    constructor
    · rintro ⟨hm, hl, hb, hc⟩
      exact ⟨⟨hm, hb⟩, trivial, hl, (hcrc hm hl).2 hc⟩
    · rintro ⟨⟨hm, hb⟩, -, hl, hg⟩
      exact ⟨hm, hl, hb, (hcrc hm hl).1 hg⟩
  | crcInit | crcBit | crcByte | crcCompute | crcCheck | header | endMarker | handshakeReq | handshakeResp | ack
  | nack => exact ⟨nofun, nofun⟩

theorem selects_iff_decode {s : State} (hi : s.Inv) {b : Byte} {i : Instr} :
    Selects s b i ↔ decode (decodeCtx s) (dispatchWord s.mode b) = .ok i :=
  (selects_iff_isRowOf hi).trans (decode_eq_ok (x := decodeCtx s) hi.1).symm

/-- In ACCUM the received byte is never past the frame's end (R163), so the map answers in every mode. -/
theorem exists_decode_eq_ok {s : State} (hi : s.Inv) (b : Byte) :
    ∃ i, decode (decodeCtx s) (dispatchWord s.mode b) = .ok i := by
  cases hm : s.mode with
  | seek => exact ⟨_, decode_seek _ b⟩
  | rlen => exact ⟨_, decode_rlen _ b⟩
  | accum =>
    obtain ⟨-, -, -, hcnt, -⟩ := hi.2.2.2 hm
    have hp : position s ≠ .past := fun h => (position_past.1 h).not_ge hcnt
    rw [decode_accum, decodeAccum]
    split
    · exact ⟨_, rfl⟩
    · exact ⟨_, rfl⟩
    · exact absurd ‹_› hp

theorem exists_selects {s : State} (hi : s.Inv) (b : Byte) : ∃ i, Selects s b i :=
  (exists_decode_eq_ok hi b).imp fun _ => (selects_iff_decode hi).2

/-- A last byte completes the frame with the CRC byte and the payload already buffered (R117). -/
theorem State.Inv.completion_eq {s : State} (hi : s.Inv) (hm : s.mode = .accum) (hl : s.cnt.toNat + 1 = s.len.toNat)
    (b : Byte) : ∃ c, s.frameCrc = some c ∧ completion b s = .ok ⟨b, c, s.framePayload⟩ := by
  have ha := hi.2.2.2 hm
  obtain ⟨c, hc⟩ := ha.frameCrc_some hl
  exact ⟨c, hc, ha.completion_eq hl b hc⟩

/-! ## The operation selected answers, and no other -/

/-- Each operation answers in a state with the invariants in which its row is selected. -/
theorem exec_answers_of_selects {s : State} {b : Byte} {i : Instr} (hi : s.Inv) (h : Selects s b i) :
    ∃ t, exec i s = .next t := by
  have hcap := hi.cnt_lt_maxLen
  cases i with
  | sync => exact ⟨_, execSync_next.2 ⟨⟨h.1, (Nat.zero_le _).trans_lt hcap⟩, rfl⟩⟩
  | hsk => exact ⟨_, execHsk_next.2 ⟨h.1, rfl⟩⟩
  | skip => obtain ⟨rfl, h⟩ := h; exact ⟨_, execSkip_next.2 ⟨h, rfl⟩⟩
  | lenbad => obtain ⟨rfl, h⟩ := h; exact ⟨_, execLenbad_next.2 ⟨h, rfl⟩⟩
  | lenbadHi => obtain ⟨rfl, h⟩ := h; exact ⟨_, execLenbadHi_next.2 ⟨h, rfl⟩⟩
  | lenok => obtain ⟨rfl, hm, hb⟩ := h; exact ⟨_, execLenok_next.2 ⟨⟨hm, hb, hcap⟩, rfl⟩⟩
  | acc => obtain ⟨rfl, hm, hp⟩ := h; exact ⟨_, execAcc_next.2 ⟨⟨hm, position_before.2 hp, hcap⟩, rfl⟩⟩
  | finBadend =>
    obtain ⟨rfl, hm, hl, hb⟩ := h
    obtain ⟨c, -, hf⟩ := hi.completion_eq hm hl _
    exact ⟨_, execFinBadend_next.2 ⟨⟨hm, position_last.2 hl⟩, ⟨_, hf, hb⟩, rfl⟩⟩
  | finBadcrc =>
    obtain ⟨hm, hl, -, hne⟩ := h
    obtain ⟨c, hc, hf⟩ := hi.completion_eq hm hl Wire.endMarker
    have hcrc : crc8 s.framePayload ≠ c := fun e => hne (hc.trans (congrArg some e.symm))
    exact ⟨_, execFinBadcrc_next.2 ⟨⟨hm, position_last.2 hl⟩, ⟨_, hf, hcrc⟩, rfl⟩⟩
  | finOk =>
    obtain ⟨hm, hl, -, heq⟩ := h
    obtain ⟨c, hc, hf⟩ := hi.completion_eq hm hl Wire.endMarker
    exact ⟨_, execFinOk_next.2 ⟨⟨hm, position_last.2 hl⟩, _, hf, Option.some.inj (heq.symm.trans hc), rfl⟩⟩
  | crcInit | crcBit | crcByte | crcCompute | crcCheck | header | endMarker | handshakeReq | handshakeResp | ack
  | nack => exact h.elim

/-- Each byte-driven operation that answers has its row selected for the byte of its encoding (log 6). -/
theorem selects_of_exec_next {s t : State} {i : Instr} {w : BitVec 10} (hi : s.Inv) (he : encode i = .dispatch w)
    (h : exec i s = .next t) : Selects s (wordByte w) i := by
  cases i <;> cases he <;> rw [wordByte_dispatchWord]
  case sync => obtain ⟨⟨hm, -⟩, -⟩ := execSync_next.1 h; exact ⟨hm, rfl⟩
  case hsk => obtain ⟨hm, -⟩ := execHsk_next.1 h; exact ⟨hm, rfl⟩
  case skip => exact ⟨rfl, (execSkip_next.1 h).1⟩
  case lenbad => exact ⟨rfl, (execLenbad_next.1 h).1⟩
  case lenbadHi => exact ⟨rfl, (execLenbadHi_next.1 h).1⟩
  case lenok => obtain ⟨⟨hm, hb, -⟩, -⟩ := execLenok_next.1 h; exact ⟨rfl, hm, hb⟩
  case acc => obtain ⟨⟨hm, hp, -⟩, -⟩ := execAcc_next.1 h; exact ⟨rfl, hm, position_before.1 hp⟩
  case finBadend b =>
    obtain ⟨⟨hm, hp⟩, ⟨f, hf, hb⟩, -⟩ := execFinBadend_next.1 h
    have hl := position_last.1 hp
    obtain ⟨c, -, hf'⟩ := hi.completion_eq hm hl b
    cases hf'.symm.trans hf
    exact ⟨rfl, hm, hl, hb⟩
  case finBadcrc =>
    obtain ⟨⟨hm, hp⟩, ⟨f, hf, hne⟩, -⟩ := execFinBadcrc_next.1 h
    have hl := position_last.1 hp
    obtain ⟨c, hc, hf'⟩ := hi.completion_eq hm hl Wire.endMarker
    cases hf'.symm.trans hf
    exact ⟨hm, hl, rfl, fun e => hne (Option.some.inj (e.symm.trans hc))⟩
  case finOk =>
    obtain ⟨⟨hm, hp⟩, f, hf, heq, -⟩ := execFinOk_next.1 h
    have hl := position_last.1 hp
    obtain ⟨c, hc, hf'⟩ := hi.completion_eq hm hl Wire.endMarker
    cases hf'.symm.trans hf
    exact ⟨hm, hl, rfl, hc.trans (congrArg some heq.symm)⟩

/-! ## One received byte -/

theorem handleEvent_of_selects {s : State} {b : Byte} {i : Instr} (hi : s.Inv) (h : Selects s b i) :
    handleEvent (.byte b) s = exec i s :=
  (handleEvent_byte hi.1 b).trans (executeByte_of_decode ((selects_iff_decode hi).1 h))

theorem exists_handleEvent_next {s : State} (hi : s.Inv) (e : RxEvent) : ∃ t, handleEvent e s = .next t := by
  cases e with
  | reset c => exact ⟨_, handleEvent_reset hi.1 c⟩
  | byte b =>
    obtain ⟨i, h⟩ := exists_selects hi b
    rw [handleEvent_of_selects hi h]
    exact exec_answers_of_selects hi h

/-- A step that receives a byte does what the byte does, the rest of RX kept (R44). -/
theorem step_byte_next {s t : State} {b : Byte} (h : handleEvent (.byte b) s = .next t) (r : List RxEvent) :
    step { s with rx := .byte b :: r } = .next { t with rx := r } :=
  calc step { s with rx := .byte b :: r }
    _ = handleEvent (.byte b) (s.withRx r) := step_cons rfl
    _ = mapNext (State.withRx r) (handleEvent (.byte b) s) := handleEvent_withRx _ s r
    _ = .next { t with rx := r } := by rw [h]; rfl

/-- The reference step of R163 is the operation map followed by the operation. -/
theorem receive_eq_executeByte (b : Byte) (s : State) : receive b s = executeByte b s := by
  cases hm : s.mode with
  | seek =>
    rw [executeByte_of_decode (decode_of_seek hm b), receive, hm, decodeSeek]
    split_ifs <;> rfl
  | rlen =>
    rw [executeByte_of_decode (decode_of_rlen hm b), receive, hm, decodeLength]
    split_ifs <;> rfl
  | accum =>
    cases hp : position s with
    | before | past => simp only [receive, executeByte, hm, decode_accum, decodeAccum, decodeCtx, hp] <;> rfl
    | last =>
      simp only [receive, executeByte, hm, decode_accum, decodeAccum, decodeCtx, hp]
      split_ifs <;> rfl

/-- The receipt of a byte is the operation the map selects for it, and completes as a step that receives it does. -/
theorem exists_receive_next {s : State} (hi : s.Inv) (b : Byte) :
    ∃ j t, Selects s b j ∧ receive b s = exec j s ∧ receive b s = .next t ∧
      ∀ r, step { s with rx := .byte b :: r } = .next { t with rx := r } := by
  obtain ⟨j, hj⟩ := exists_selects hi b
  obtain ⟨t, ht⟩ := exec_answers_of_selects hi hj
  have hb := handleEvent_of_selects hi hj
  have hr : receive b s = exec j s := by rw [receive_eq_executeByte, ← handleEvent_byte hi.1, hb]
  exact ⟨j, t, hj, hr, hr.trans ht, step_byte_next (hb.trans ht)⟩

/-! ## Runs over one frame -/

theorem run_append_of_next {es es' : List RxEvent} {s t : State} (h : run es s = .next t) :
    run (es ++ es') s = run es' t := by
  induction es generalizing s with
  | nil => cases h; rfl
  | cons e es ih =>
    obtain ⟨u, hu, hes⟩ := run_cons_eq_next.1 h
    rw [List.cons_append, run_cons_next hu, ih hes]

/-- `t` is `s` with `bs` appended to the buffer, one empty record a byte, and nothing else changed. -/
structure Accumulated (bs : List Byte) (s t : State) : Prop where
  cnt : t.cnt.toNat = s.cnt.toNat + bs.length
  bytes : t.bytes = s.bytes ++ bs
  frame : t = { s with cnt := t.cnt, buf := t.buf, outs := s.outs ++ List.replicate bs.length Out.empty }

theorem Accumulated.refl (s : State) : Accumulated [] s s :=
  ⟨rfl, (List.append_nil _).symm, by simp⟩

theorem Accumulated.trans {bs cs : List Byte} {s t u : State} (h : Accumulated bs s t) (h' : Accumulated cs t u) :
    Accumulated (bs ++ cs) s u where
  cnt := by rw [h'.cnt, h.cnt, List.length_append, Nat.add_assoc]
  bytes := by rw [h'.bytes, h.bytes, List.append_assoc]
  frame := by
    rw [h'.frame, h.frame]
    simp only [List.length_append, List.replicate_add, List.append_assoc]

/-- ACC as one step of accumulation (R116). -/
theorem handleEvent_acc {s : State} (hi : s.Inv) (hm : s.mode = .accum) (hp : s.cnt.toNat + 1 < s.len.toNat)
    (b : Byte) : ∃ t, handleEvent (.byte b) s = .next t ∧ t.Inv ∧ Accumulated [b] s t := by
  have hcap := hi.cnt_lt_maxLen
  obtain ⟨-, -, -, -, hrange, -, -⟩ := hi.2.2.2 hm
  obtain ⟨-, hcnt⟩ := write_at_cnt hcap b
  have hsel : Selects s b (.acc b) := ⟨rfl, hm, hp⟩
  have hexec := execAcc_next (b := b).2 ⟨⟨hm, position_before.2 hp, hcap⟩, rfl⟩
  refine ⟨_, (handleEvent_of_selects hi hsel).trans hexec, inv_emit (inv_acc hi hm hp b) _, hcnt, ?_, rfl⟩
  show (s.buf.write s.cnt.toNat b).map Prod.snd = _
  rw [Memory.write_range_end b hrange, List.map_append]
  rfl

/-- Bytes short of the declared length are accumulated, whatever they are (R116). -/
theorem run_accumulates (bs : List Byte) {s : State} (hi : s.Inv) (hm : s.mode = .accum)
    (hl : s.cnt.toNat + bs.length < s.len.toNat) :
    ∃ t, run (received bs) s = .next t ∧ t.Inv ∧ Accumulated bs s t := by
  induction bs generalizing s with
  | nil => exact ⟨s, rfl, hi, .refl s⟩
  | cons b bs ih =>
    rw [List.length_cons] at hl
    obtain ⟨u, hu, hui, hacc⟩ := handleEvent_acc hi hm (by omega) b
    have hum : u.mode = .accum := by rw [hacc.frame]; exact hm
    have hul : u.len = s.len := by rw [hacc.frame]
    obtain ⟨t, ht, hti, hacc'⟩ := ih hui hum (by rw [hul, hacc.cnt, List.length_singleton]; omega)
    exact ⟨t, (run_cons_next hu).trans ht, hti, hacc.trans hacc'⟩

/-- SYNC (R112). -/
theorem handleEvent_sync {s : State} (hi : s.Inv) (hm : s.mode = .seek) :
    handleEvent (.byte Wire.header) s =
      .next (emit Out.empty { s with mode := .rlen, cnt := 1#8, buf := [(0, Wire.header)] }) := by
  have hsel : Selects s Wire.header .sync := ⟨hm, rfl⟩
  rw [handleEvent_of_selects hi hsel]
  exact execSync_next.2 ⟨⟨hm, (Nat.zero_le _).trans_lt hi.cnt_lt_maxLen⟩, rfl⟩

/-- LENOK: the buffer was `[AA]` (R27, R114). -/
theorem handleEvent_lenok {s : State} (hi : s.Inv) (hm : s.mode = .rlen) {b : Byte} (hb : s.cfg.LenValid b) :
    handleEvent (.byte b) s =
      .next (emit Out.empty { s with mode := .accum, len := b, buf := [(0, Wire.header), (1, b)], cnt := 2#8 }) := by
  have hsel : Selects s b (.lenok b) := ⟨rfl, hm, hb⟩
  obtain ⟨hcnt, hbuf, -⟩ := hi.2.2.1 hm
  rw [handleEvent_of_selects hi hsel]
  refine execLenok_next.2 ⟨⟨hm, hb, hi.cnt_lt_maxLen⟩, ?_⟩
  rw [hcnt, hbuf]
  rfl

/-- SYNC and LENOK from an idle state: the buffer is `[AA, l]` (R112, R114). -/
theorem run_header_length {s : State} (hs : s.Idle) {l : Byte} (hl : s.cfg.LenValid l) :
    ∃ t, run (received [Wire.header, l]) s = .next t ∧ t.Inv ∧
      t = { s with mode := .accum, cnt := 2#8, buf := [(0, Wire.header), (1, l)], len := l,
                   outs := s.outs ++ List.replicate 2 Out.empty } := by
  obtain ⟨hi, hm⟩ := hs
  have hi' := inv_emit (inv_sync hi hm) Out.empty
  refine ⟨_, (run_cons_next (handleEvent_sync hi hm)).trans (run_cons_next (handleEvent_lenok hi' rfl hl)),
    inv_emit (inv_lenok hi' rfl hl) _, ?_⟩
  simp only [emit, List.append_assoc]
  rfl

/-- An idle parser's fields are those of `S0` (R27, R28). -/
theorem State.Idle.with_outs {s : State} (hs : s.Idle) (os : List Out) :
    { s with outs := os } = { s with mode := .seek, cnt := 0#8, buf := [], len := 0#8, outs := os } := by
  obtain ⟨⟨-, hseek, -⟩, hm⟩ := hs
  obtain ⟨hcnt, hbuf, hlen⟩ := hseek hm
  rw [State.mk.injEq]
  exact ⟨rfl, hm, hcnt, hbuf, hlen, rfl, rfl, rfl, rfl, rfl⟩

/-- The machine one byte short of the end of a frame with payload `p` and CRC byte `c`, begun in `s` (R117). -/
structure AwaitsEnd (p : List Byte) (c : Byte) (s t : State) : Prop where
  inv : t.Inv
  mode : t.mode = .accum
  last : t.cnt.toNat + 1 = t.len.toNat
  payload : t.framePayload = p
  crc : t.frameCrc = some c
  idleWith : ∀ o, t.idleWith o = { s with outs := s.outs ++ List.replicate (p.length + 3) Out.empty ++ [o] }

/-- A frame but for its last byte, whatever its CRC byte, from an idle state (R60). -/
theorem run_awaitsEnd {s : State} (hs : s.Idle) {p : List Byte} (hp : p.length + 4 ≤ s.cfg.maxLen.toNat) (c : Byte) :
    ∃ t, run (received ([Wire.header, BitVec.ofNat 8 (p.length + 4)] ++ (p ++ [c]))) s = .next t ∧
      AwaitsEnd p c s t := by
  have hmax := s.cfg.maxLen.isLt
  have hlen : (BitVec.ofNat 8 (p.length + 4)).toNat = p.length + 4 :=
    (BitVec.toNat_ofNat _ _).trans (Nat.mod_eq_of_lt (by omega))
  obtain ⟨u, hu, hui, rfl⟩ := run_header_length hs (l := BitVec.ofNat 8 (p.length + 4)) ⟨by omega, by omega⟩
  obtain ⟨t, ht, hti, hcnt, hbytes, hframe⟩ := run_accumulates (p ++ [c]) hui rfl (by
    rw [List.length_append, hlen]; show 2 + (p.length + 1) < _; omega)
  have hbytes' : t.bytes = [Wire.header, BitVec.ofNat 8 (p.length + 4)] ++ (p ++ [c]) := hbytes
  have htl : t.len.toNat = p.length + 4 := by rw [hframe]; exact hlen
  have hcnt' : t.cnt.toNat = 2 + (p.length + 1) := hcnt.trans (by rw [List.length_append]; rfl)
  refine ⟨t, ?_, hti, ?_, ?_, ?_, ?_, fun o => ?_⟩
  · rw [received_append, run_append_of_next hu, ht]
  · rw [hframe]
  · omega
  · rw [State.framePayload, hbytes', htl]
    simp
  · rw [State.frameCrc, hbytes', htl]
    simp
  · have houts : s.outs ++ List.replicate 2 Out.empty ++ List.replicate (p ++ [c]).length Out.empty =
        s.outs ++ List.replicate (p.length + 3) Out.empty := by
      rw [List.append_assoc, List.replicate_append_replicate, List.length_append, Nat.add_comm]
      rfl
    rw [hframe, hs.with_outs, ← houts]
    rfl

theorem AwaitsEnd.completion_eq {p : List Byte} {c : Byte} {s t : State} (h : AwaitsEnd p c s t) (e : Byte) :
    completion e t = .ok ⟨e, c, p⟩ := by
  obtain ⟨c', hc', hf⟩ := h.inv.completion_eq h.mode h.last e
  cases h.crc.symm.trans hc'
  rw [hf, h.payload]

/-- A whole frame from an idle state, by what the operation selected for its last byte does one byte short of the end. -/
theorem run_frameWith {s : State} {p : List Byte} {c e : Byte} {i : Instr} {o : Out} (hs : s.Idle)
    (hp : p.length + 4 ≤ s.cfg.maxLen.toNat)
    (hlast : ∀ t, AwaitsEnd p c s t → Selects t e i ∧ exec i t = .next (t.idleWith o)) :
    run (received (frameWith p c e)) s =
      .next { s with outs := s.outs ++ List.replicate (p.length + 3) Out.empty ++ [o] } := by
  obtain ⟨t, hrun, ht⟩ := run_awaitsEnd hs hp c
  obtain ⟨hsel, hexec⟩ := hlast t ht
  have hbytes : frameWith p c e = [Wire.header, BitVec.ofNat 8 (p.length + 4)] ++ (p ++ [c]) ++ [e] := by
    simp [frameWith]
  rw [hbytes, received_append, run_append_of_next hrun, ← ht.idleWith o]
  exact run_cons_next ((handleEvent_of_selects ht.inv hsel).trans hexec)

/-! ## The obligations -/

/-- Settles O2, by the kind of encoding: a dispatch word, a constant, or none. -/
theorem decodeOfEncode : Obligations.DecodeOfEncode := by
  intro x i hv hwf hsel hne
  cases he : encode i with
  | dispatch w => exact decode_of_isRowOf hv ⟨he, hwf, hsel⟩
  | constant v => exact decodeConstant_eq_ok.2 he
  | internal => exact absurd he hne

/-- Settles O3: what the map answers is a row for the word, and each constant has its own byte. -/
theorem encodeOfDecode : Obligations.EncodeOfDecode :=
  ⟨fun _ _ _ => isRowOf_of_decode, fun _ _ => decodeConstant_eq_ok.1⟩

/-- Settles O4: a row's condition holds exactly if the decoder gives the row, and the decoder gives one. -/
theorem everyByteSelectsOneOperation : Obligations.EveryByteSelectsOneOperation := by
  intro s b hi
  obtain ⟨i, hd⟩ := exists_decode_eq_ok hi b
  exact ⟨i, (selects_iff_decode hi).2 hd,
    fun j hj => Except.ok.inj (((selects_iff_decode hi).1 hj).symm.trans hd), hd⟩

/-- Settles O5, operation by operation. -/
theorem operationsRunOnlyWhenSelected : Obligations.OperationsRunOnlyWhenSelected := fun _ _ _ _ =>
  selects_of_exec_next

/-- Settles O13: without an event the state stays, and every event is answered. -/
theorem stepAlwaysAnswers : Obligations.StepAlwaysAnswers := by
  intro s hi
  cases h : s.rx with
  | nil => exact ⟨s, step_nil h hi.1⟩
  | cons e rest =>
    rw [step_cons h]
    exact exists_handleEvent_next (s := { s with rx := rest }) hi e

/-- Settles O42: each of the three is the reference step on its byte (log 9). -/
theorem receivedConstantsAreTheirByte : Obligations.ReceivedConstantsAreTheirByte := fun _ hi =>
  ⟨exists_receive_next hi Wire.header, exists_receive_next hi Wire.endMarker, exists_receive_next hi Wire.handshakeReq⟩

/-- Settles O49: the last byte selects FIN.OK. -/
theorem wellFormedFrameIsAccepted : Obligations.WellFormedFrameIsAccepted := fun _ _ hs hp =>
  run_frameWith (i := .finOk) hs hp fun _ ht =>
    ⟨⟨ht.mode, ht.last, rfl, by rw [ht.crc, ht.payload]⟩,
      execFinOk_next.2 ⟨⟨ht.mode, position_last.2 ht.last⟩, _, ht.completion_eq _, rfl, rfl⟩⟩

/-- Settles O50: the last byte selects FIN.BADCRC. -/
theorem frameWithWrongCrcIsRejected : Obligations.FrameWithWrongCrcIsRejected := fun _ _ _ hs hp hc =>
  run_frameWith (i := .finBadcrc) hs hp fun _ ht =>
    ⟨⟨ht.mode, ht.last, rfl, by rw [ht.crc, ht.payload]; exact fun h => hc (Option.some.inj h)⟩,
      execFinBadcrc_next.2 ⟨⟨ht.mode, position_last.2 ht.last⟩, ⟨_, ht.completion_eq _, hc.symm⟩, rfl⟩⟩

/-- Settles O51: the last byte selects FIN.BADEND, whatever the CRC byte. -/
theorem frameWithWrongEndIsRejected : Obligations.FrameWithWrongEndIsRejected := fun _ _ _ e hs hp he =>
  run_frameWith (i := .finBadend e) hs hp fun _ ht =>
    ⟨⟨rfl, ht.mode, ht.last, he⟩,
      execFinBadend_next.2 ⟨⟨ht.mode, position_last.2 ht.last⟩, ⟨_, ht.completion_eq e, he⟩, rfl⟩⟩

/-- Settles O1, by evaluating the decoder on each word; where the CRC is not consulted its bit stays open. -/
theorem writtenOutWordsDecode : Obligations.WrittenOutWordsDecode := fun _ =>
  ⟨rfl, rfl, rfl, rfl, rfl, rfl, rfl, rfl, rfl, rfl, rfl, rfl, rfl, rfl, rfl, rfl⟩

end Sys2Proof.Machine

/-!
PROOFS. The CRC-8 codec (40_crc8.md): the internal operations on the register, and the properties of R98.
-/

namespace Sys2Proof.Machine

/-! ## The shift step -/

/-- One shift step without a branch: the left shift, and the polynomial where bit 7 was set (R92). -/
theorem crcShift_eq_xor (r : Byte) : crcShift r = r <<< 1 ^^^ if r.getLsbD 7 then crcPoly else 0#8 := by
  unfold crcShift
  split <;> simp

/-- The codec's shift step is the arithmetic one: doubling within 8 bits, reduced where the register was 128 or more. -/
theorem crcShift_eq_shiftStep : crcShift = shiftStep := by
  funext r
  have hdouble : BitVec.ofNat 8 (2 * r.toNat) = r <<< 1 :=
    BitVec.eq_of_toNat_eq (by simp [Nat.shiftLeft_eq, Nat.mul_comm])
  have htop : r.getLsbD 7 = decide (128 ≤ r.toNat) := (BitVec.msb_eq_getLsbD_last r).symm.trans r.msb_eq_decide
  simp only [crcShift_eq_xor, shiftStep, hdouble, htop, decide_eq_true_eq, crcPoly]

/-- The shift step is linear over xor: the shift is, and so is the choice of the polynomial by bit 7. -/
theorem crcShift_xor (a b : Byte) : crcShift (a ^^^ b) = crcShift a ^^^ crcShift b := by
  have hpoly : ∀ x y : Bool, (if x ^^ y then crcPoly else 0#8) =
      (if x then crcPoly else 0#8) ^^^ if y then crcPoly else 0#8 := by decide
  simp only [crcShift_eq_xor, BitVec.shiftLeft_xor_distrib, BitVec.getLsbD_xor, hpoly]
  ac_rfl

/-- The polynomial's constant term keeps the bit that is shifted out. -/
theorem crcShift_bit_zero (r : Byte) : (crcShift r).getLsbD 0 = r.getLsbD 7 := by
  rw [crcShift_eq_xor, BitVec.getLsbD_xor]
  cases r.getLsbD 7 <;> simp [crcPoly]

/-- A shift step loses nothing: its bit 0 says what was xored in, and what remains is the other seven bits. -/
theorem crcShift_injective : Function.Injective crcShift := by
  intro a b h
  have htop : a.getLsbD 7 = b.getLsbD 7 := by rw [← crcShift_bit_zero, h, crcShift_bit_zero]
  rw [crcShift_eq_xor, crcShift_eq_xor, htop, BitVec.xor_left_inj] at h
  refine BitVec.eq_of_getLsbD_eq fun i hi => ?_
  obtain rfl | hi7 : i = 7 ∨ i + 1 < 8 := by omega
  · exact htop
  · simpa [hi, hi7, -BitVec.getLsbD_eq_getElem] using congrArg (BitVec.getLsbD · (i + 1)) h

/-! ## Absorbing bytes -/

theorem crcShifts_eq_iterate (n : Nat) (r : Byte) : crcShifts n r = crcShift^[n] r := by
  induction n generalizing r with
  | zero => rfl
  | succ n ih => exact ih _

/-- Absorbing a byte is eight shift steps of the register with the byte xored in (R93). -/
theorem crcAbsorb_eq_iterate (r d : Byte) : crcAbsorb r d = crcShift^[8] (r ^^^ d) := crcShifts_eq_iterate 8 _

theorem crcAbsorb_inj {r r' d d' : Byte} : crcAbsorb r d = crcAbsorb r' d' ↔ r ^^^ d = r' ^^^ d' := by
  rw [crcAbsorb_eq_iterate, crcAbsorb_eq_iterate, (crcShift_injective.iterate 8).eq_iff]

theorem crcAbsorb_left_injective (d : Byte) : Function.Injective (crcAbsorb · d) := fun _ _ h =>
  (BitVec.xor_left_inj d).1 (crcAbsorb_inj.1 h)

theorem crcAbsorb_right_injective (r : Byte) : Function.Injective (crcAbsorb r) := fun _ _ h =>
  (BitVec.xor_right_inj r).1 (crcAbsorb_inj.1 h)

/-- A byte equal to the register is absorbed to zero (R93). -/
theorem crcAbsorb_self (r : Byte) : crcAbsorb r r = 0#8 := by
  rw [crcAbsorb_eq_iterate, BitVec.xor_self]
  rfl

theorem crcAbsorb_xor (r r' d d' : Byte) :
    crcAbsorb (r ^^^ r') (d ^^^ d') = crcAbsorb r d ^^^ crcAbsorb r' d' := by
  have hlin : Function.Semiconj₂ crcShift^[8] (· ^^^ ·) (· ^^^ ·) := .iterate crcShift_xor 8
  have hswap : r ^^^ r' ^^^ (d ^^^ d') = r ^^^ d ^^^ (r' ^^^ d') := by ac_rfl
  simp only [crcAbsorb_eq_iterate, hswap, hlin.eq]

/-- CRC.BYTE is one absorption, on the register alone (R93). -/
theorem exec_crcByte (d : Byte) (s : State) : exec (.crcByte d) s = .next { s with crc := crcAbsorb s.crc d } :=
  congrArg Host.Outcome.next (crcTake_eq s d)

/-! ## The CRC-8 of a sequence -/

theorem crc8_append (p q : List Byte) : crc8 (p ++ q) = q.foldl crcAbsorb (crc8 p) := List.foldl_append

theorem crc8_concat (p : List Byte) (d : Byte) : crc8 (p ++ [d]) = crcAbsorb (crc8 p) d := crc8_append p [d]

/-- Whatever follows, two registers stay apart. -/
theorem foldl_crcAbsorb_injective (q : List Byte) : Function.Injective (q.foldl crcAbsorb) := by
  induction q with
  | nil => exact Function.injective_id
  | cons d q ih => exact ih.comp (crcAbsorb_left_injective d)

/-- Linearity from any two seeds, which the induction needs. -/
theorem foldl_crcAbsorb_xor {p q : List Byte} (h : p.length = q.length) (r r' : Byte) :
    (List.zipWith (· ^^^ ·) p q).foldl crcAbsorb (r ^^^ r') = p.foldl crcAbsorb r ^^^ q.foldl crcAbsorb r' := by
  induction p generalizing q r r' with
  | nil =>
    cases q with
    | nil => rfl
    | cons e q => cases h
  | cons d p ih =>
    cases q with
    | nil => cases h
    | cons e q =>
      simp only [List.zipWith_cons_cons, List.foldl_cons, crcAbsorb_xor]
      exact ih (Nat.succ.inj h) _ _

/-! ## The obligations -/

/-- Settles O34: the codec's run is `crc8` in the register, and `crc8` is a fold from the left. -/
theorem crcComputeFoldsBytes : Obligations.CrcComputeFoldsBytes := by
  refine ⟨fun s bs => congrArg Host.Outcome.next (crcRun_eq bs s), rfl, fun bs d => ?_⟩
  rw [crc8_concat, crcAbsorb_eq_iterate, crcShift_eq_shiftStep]

/-- Settles O36: CRC.BYTE on an answered state is the fold's step of CRC.COMPUTE, so the fold of answers is the answer
of the fold. -/
theorem crcByteByByteEqualsCompute : Obligations.CrcByteByByteEqualsCompute := fun _ _ =>
  List.foldl_hom Host.Outcome.next (g₁ := crcTake) fun _ _ => rfl

/-- Settles O37: the seed is zero, so it is the xor of two seeds. -/
theorem crcIsLinear : Obligations.CrcIsLinear := fun _ _ h => foldl_crcAbsorb_xor h crcSeed crcSeed

/-- Settles O38: a zero byte absorbed into the seed leaves the seed. -/
theorem crcIgnoresLeadingZeros : Obligations.CrcIgnoresLeadingZeros := by
  intro n p
  have hzeros : crc8 (List.replicate n 0x00#8) = crcSeed := by
    induction n with
    | zero => rfl
    | succ n ih => rw [List.replicate_succ', crc8_concat, ih]; exact crcAbsorb_self crcSeed
  rw [crc8_append, hzeros]
  rfl

/-- Settles O40: the changed byte leaves two different registers, and the bytes after it keep them different. -/
theorem crcDetectsOneChangedByte : Obligations.CrcDetectsOneChangedByte := by
  intro p q d d' hne h
  rw [crc8_append, crc8_concat, crc8_append, crc8_concat] at h
  exact hne (crcAbsorb_right_injective _ (foldl_crcAbsorb_injective q h))

/-- Settles O32: both are writes of the register. -/
theorem crcInitAndBit : Obligations.CrcInitAndBit := fun s =>
  ⟨rfl, by rw [← crcShift_eq_shiftStep]; rfl⟩

/-- Settles O33, by the absorption of one byte. -/
theorem crcByteAbsorbs : Obligations.CrcByteAbsorbs := by
  intro s d
  constructor
  · rw [exec_crcByte, crcAbsorb_eq_iterate, crcShift_eq_shiftStep]
  · rw [exec_crcByte, crcAbsorb_self]

/-- Settles O35: the state is the codec's run with its comparison; the byte that passes is the CRC-8 itself. -/
theorem crcCheckCompares : Obligations.CrcCheckCompares := by
  refine ⟨fun s p c => ⟨_, rfl, ?_, ?_⟩, fun p => ⟨crc8 p, ?_, fun c' h => ?_⟩⟩
  · rw [setCrcOk_crcOk, crcRun_eq, setCrc_crc]
  · rw [crcRun_eq]; rfl
  · exact decide_eq_true rfl
  · exact (of_decide_eq_true h).symm

/-- Settles O39: the last byte equals the register. -/
theorem crcOfMessageAndCrcIsZero : Obligations.CrcOfMessageAndCrcIsZero := fun p => by
  rw [crc8_concat, crcAbsorb_self]

end Sys2Proof.Machine

/-!
PROOFS. The frame parser (41_frame_parser.md): what each of its operations completes with, what the operations leave
unchanged, and runs of frames, of noise and of unfinished frames.
-/

namespace Sys2Proof.Machine

/-! ## Completion -/

/-- With an admitted MAX_LEN, a row for the dispatch word completes with what it answers. The invariants of R27 are not
needed: SYNC, SKIP, LENBAD and LENBAD.HI look at the mode and the byte alone. -/
theorem completes_of_isRowOf {i : Instr} {b : Byte} {s t : State} (hv : s.cfg.Valid)
    (hrow : IsRowOf (decodeCtx s) (dispatchWord s.mode b) i) (h : exec i s = .next t) : Completes i b s t := by
  have hb : executeByte b s = exec i s := executeByte_of_decode (decode_of_isRowOf (x := decodeCtx s) hv hrow)
  exact ⟨h, step_byte_next ((handleEvent_byte hv b).trans (hb.trans h))⟩

/-- An operation whose row is selected answers, so it completes with the one state it can answer. -/
theorem completes_of_selects {i : Instr} {b : Byte} {s t : State} (hi : s.Inv) (hsel : Selects s b i)
    (honly : ∀ u, exec i s = .next u → u = t) : Completes i b s t := by
  obtain ⟨u, hu⟩ := exec_answers_of_selects hi hsel
  cases honly u hu
  exact completes_of_isRowOf hi.1 ((selects_iff_isRowOf hi).1 hsel) hu

/-! ## What the operations leave unchanged -/

/-- The operations that end a frame attempt, as the frame statements list them. -/
abbrev Instr.EndsAttempt (i : Instr) : Prop :=
  i ∈ [Instr.finBadcrc, .finOk] ∨ ∃ b, i = .lenbad b ∨ i = .lenbadHi b ∨ i = .finBadend b

/-- They leave the parser idle, with one record more, and change nothing else (R124). -/
theorem exec_next_of_endsAttempt {i : Instr} {s t : State} (hend : Instr.EndsAttempt i) (h : exec i s = .next t) :
    ∃ o, t = s.idleWith o := by
  simp only [Instr.EndsAttempt, List.mem_cons, List.not_mem_nil, or_false] at hend
  obtain (rfl | rfl) | ⟨b, rfl | rfl | rfl⟩ := hend
  · obtain ⟨-, -, rfl⟩ := execFinBadcrc_next.1 h; exact ⟨_, raise_eq_idleWith _ s⟩
  · obtain ⟨-, f, -, -, rfl⟩ := execFinOk_next.1 h; exact ⟨_, accept_eq_idleWith _ s⟩
  · obtain ⟨-, rfl⟩ := execLenbad_next.1 h; exact ⟨_, raise_eq_idleWith _ s⟩
  · obtain ⟨-, rfl⟩ := execLenbadHi_next.1 h; exact ⟨_, raise_eq_idleWith _ s⟩
  · obtain ⟨-, -, rfl⟩ := execFinBadend_next.1 h; exact ⟨_, raise_eq_idleWith _ s⟩

/-- The next states of the instructions that store nothing: a record more, for HSK with the flag set; or, for the
codec's operations, another value in the codec's registers (R94). -/
inductive NonStoringEffect (s : State) : Instr → State → Prop
  | skip (b : Byte) (o : Out) : NonStoringEffect s (.skip b) (emit o s)
  | hsk (o : Out) : NonStoringEffect s .hsk (emit o (setNegotiated s))
  | sent {i : Instr} (hsent : i ∈ [Instr.handshakeResp, .ack, .nack]) (o : Out) : NonStoringEffect s i (emit o s)
  | codec {i : Instr} (hcodec : encode i = .internal) (v : Byte) (ok : Bool) :
      NonStoringEffect s i { s with crc := v, crcOk := ok }

/-- The codec's operations, the instructions without an encoding, write the codec's registers alone (R94, R95). -/
theorem exec_next_of_internal {i : Instr} {s t : State} (hcodec : encode i = .internal) (h : exec i s = .next t) :
    ∃ v ok, t = { s with crc := v, crcOk := ok } := by
  cases i <;> cases hcodec
  case crcInit | crcBit => cases h; exact ⟨_, _, rfl⟩
  case crcByte d => cases (exec_crcByte d s).symm.trans h; exact ⟨_, _, rfl⟩
  case crcCompute bs =>
    cases h; rw [crcRun_eq]; exact ⟨_, _, rfl⟩
  case crcCheck p c =>
    cases h; rw [crcRun_eq]; exact ⟨_, _, rfl⟩

theorem NonStoringEffect.of_exec_codec {i : Instr} {s t : State} (hcodec : encode i = .internal)
    (h : exec i s = .next t) : NonStoringEffect s i t := by
  obtain ⟨v, ok, rfl⟩ := exec_next_of_internal hcodec h
  exact .codec hcodec v ok

/-! ## Records on TX and EV -/

@[simp] theorem txOf_append (os os' : List Out) : txOf (os ++ os') = txOf os ++ txOf os' := List.filterMap_append

@[simp] theorem evOf_append (os os' : List Out) : evOf (os ++ os') = evOf os ++ evOf os' := List.flatMap_append

@[simp] theorem txOf_replicate_empty (n : Nat) : txOf (List.replicate n Out.empty) = [] := by
  induction n with
  | zero => rfl
  | succ n ih => exact ih

@[simp] theorem evOf_replicate_empty (n : Nat) : evOf (List.replicate n Out.empty) = [] := by
  induction n with
  | zero => rfl
  | succ n ih => exact ih

/-! ## Runs -/

/-- A frame before other input: its records, then the run over that input from the same state (R126). -/
theorem run_frame_append {s : State} {p : List Byte} (hs : s.Idle) (hp : p.length + 4 ≤ s.cfg.maxLen.toNat)
    (x : List Byte) :
    run (received (frame p ++ x)) s =
      run (received x) { s with outs := s.outs ++ List.replicate (p.length + 3) Out.empty ++
                                  [{ tx := some 0x06#8, outcome := some (.accepted p) }] } := by
  rw [received_append, run_append_of_next (wellFormedFrameIsAccepted s p hs hp)]

/-- SKIP (R111). -/
theorem handleEvent_skip {s : State} (hi : s.Inv) (hm : s.mode = .seek) {b : Byte}
    (hb : b ≠ Wire.header ∧ b ≠ Wire.handshakeReq) : handleEvent (.byte b) s = .next (emit Out.empty s) := by
  have hsel : Selects s b (.skip b) := ⟨rfl, hm, hb⟩
  rw [handleEvent_of_selects hi hsel]
  exact execSkip_next.2 ⟨⟨hm, hb⟩, rfl⟩

/-! ## The obligations -/

/-- Settles O20: the buffer was `[AA]`, so the append is at index 1. -/
theorem lengthIsCaptured : Obligations.LengthIsCaptured := by
  intro s b hi hm hlo hhi
  have hsel : Selects s b (.lenok b) := ⟨rfl, hm, hlo, hhi⟩
  obtain ⟨hcnt, hbuf, -⟩ := hi.2.2.1 hm
  refine completes_of_selects hi hsel fun u hu => ?_
  obtain ⟨-, rfl⟩ := execLenok_next.1 hu
  rw [hcnt, hbuf]
  rfl

/-- Settles O22: the write at `cnt` is at the end of the buffer. -/
theorem byteIsAccumulated : Obligations.ByteIsAccumulated := by
  intro s b hi hm hp
  have hsel : Selects s b (.acc b) := ⟨rfl, hm, hp⟩
  obtain ⟨-, -, -, -, hrange, -, -⟩ := hi.2.2.2 hm
  refine completes_of_selects hi hsel fun u hu => ?_
  obtain ⟨-, rfl⟩ := execAcc_next.1 hu
  rw [Memory.write_range_end b hrange]
  rfl

/-- Settles O23: FIN.BADEND answers with the rejection alone, and the CRC byte is in no condition of its row. -/
theorem wrongEndIsRejected : Obligations.WrongEndIsRejected := by
  intro s b hi hm hl hb
  have hsel : Selects s b (.finBadend b) := ⟨rfl, hm, hl, hb⟩
  refine completes_of_selects hi hsel fun u hu => ?_
  obtain ⟨-, -, rfl⟩ := execFinBadend_next.1 hu
  exact raise_eq_idleWith _ s

/-- Settles O24: FIN.BADCRC answers with the rejection alone. -/
theorem wrongCrcIsRejected : Obligations.WrongCrcIsRejected := by
  intro s hi hm hl hcrc
  have hsel : Selects s 0xBB#8 .finBadcrc := ⟨hm, hl, rfl, hcrc⟩
  refine completes_of_selects hi hsel fun u hu => ?_
  obtain ⟨-, -, rfl⟩ := execFinBadcrc_next.1 hu
  exact raise_eq_idleWith _ s

/-- Settles O25: the payload that FIN.OK reads out of the full buffer is the one already buffered. -/
theorem goodFrameIsAccepted : Obligations.GoodFrameIsAccepted := by
  intro s hi hm hl hcrc
  have hsel : Selects s 0xBB#8 .finOk := ⟨hm, hl, rfl, hcrc⟩
  obtain ⟨c, -, hread⟩ := hi.completion_eq hm hl Wire.endMarker
  refine completes_of_selects hi hsel fun u hu => ?_
  obtain ⟨-, f, hf, -, rfl⟩ := execFinOk_next.1 hu
  cases hread.symm.trans hf
  exact accept_eq_idleWith _ s

/-- Settles O43: none of the effects writes the buffer or the parser's registers. -/
theorem nonStoringFrame : Obligations.NonStoringFrame := by
  intro i s t h hi
  have heffect : NonStoringEffect s i t := by
    simp only [List.mem_cons, List.not_mem_nil, or_false] at hi
    obtain (rfl | rfl | rfl | rfl | rfl | rfl) | ⟨b, rfl⟩ | ⟨d, rfl⟩ | ⟨bs, rfl⟩ | ⟨p, c, rfl⟩ := hi
    · obtain ⟨-, rfl⟩ := execHsk_next.1 h; exact .hsk _
    · exact .of_exec_codec rfl h
    · exact .of_exec_codec rfl h
    · cases h; exact .sent (by decide) _
    · cases h; exact .sent (by decide) _
    · cases h; exact .sent (by decide) _
    · obtain ⟨-, rfl⟩ := execSkip_next.1 h; exact .skip b _
    · exact .of_exec_codec rfl h
    · exact .of_exec_codec rfl h
    · exact .of_exec_codec rfl h
  cases heffect with
  | skip | sent => exact ⟨fun _ => rfl, rfl, rfl, rfl, rfl, rfl, fun _ => rfl, fun _ => ⟨rfl, rfl⟩⟩
  | hsk => exact ⟨fun _ => rfl, rfl, rfl, rfl, rfl, rfl, absurd rfl, fun _ => ⟨rfl, rfl⟩⟩
  | codec hcodec =>
    refine ⟨fun _ => rfl, rfl, rfl, rfl, rfl, rfl, fun _ => rfl, fun hother => ?_⟩
    obtain rfl | rfl | rfl | rfl | ⟨b, rfl⟩ := hother <;> cases hcodec

/-- Settles O46: each of the five leaves the parser idle. -/
theorem terminalFrame : Obligations.TerminalFrame := by
  intro i s t h hend
  obtain ⟨o, rfl⟩ := exec_next_of_endsAttempt hend h
  exact ⟨fun _ => rfl, rfl, rfl, rfl, rfl, rfl, rfl, rfl, rfl⟩

/-- Settles O52, by induction on the payloads: each frame ends in the state it began in, but for its records. -/
theorem backToBackFramesAreAccepted : Obligations.BackToBackFramesAreAccepted := by
  intro s ps hs hps
  induction ps generalizing s with
  | nil => exact ⟨[], by rw [List.append_nil]; rfl, rfl, rfl⟩
  | cons p ps ih =>
    obtain ⟨hp, hrest⟩ := List.forall_mem_cons.1 hps
    obtain ⟨os, hrun, htx, hev⟩ := ih { s with outs := s.outs ++ List.replicate (p.length + 3) Out.empty ++
      [{ tx := some 0x06#8, outcome := some (.accepted p) }] } hs hrest
    refine ⟨List.replicate (p.length + 3) Out.empty ++
      { tx := some 0x06#8, outcome := some (.accepted p) } :: os, ?_, ?_, ?_⟩
    · rw [List.flatMap_cons, run_frame_append hs hp, hrun]
      simp only [List.append_assoc, List.singleton_append]
    · rw [txOf_append, txOf_replicate_empty, List.length_cons, List.replicate_succ, ← htx]
      rfl
    · rw [evOf_append, evOf_replicate_empty, List.map_cons, ← hev]
      rfl

/-- Settles O53, by induction on the noise: each byte of it is skipped. -/
theorem noiseBeforeTrafficIsInvisible : Obligations.NoiseBeforeTrafficIsInvisible := by
  intro s n x hs hn
  induction n generalizing s with
  | nil => rw [List.length_nil, List.replicate_zero, List.append_nil]; rfl
  | cons b n ih =>
    obtain ⟨hb, hrest⟩ := List.forall_mem_cons.1 hn
    rw [List.cons_append, received_cons, run_cons_next (handleEvent_skip hs.1 hs.2 hb), ih (emit Out.empty s) hs hrest]
    simp only [emit, List.append_assoc, List.singleton_append, List.length_cons, List.replicate_succ]

/-- Settles O55: the bytes are accumulated, and the frame of accumulation gives the fields. -/
theorem stalledAttemptStaysSilent : Obligations.StalledAttemptStaysSilent := by
  intro s bs hi hm hl
  obtain ⟨t, hrun, hti, hcnt, hbytes, hframe⟩ := run_accumulates bs hi hm hl
  exact ⟨t, hrun, hti, by rw [hframe]; exact hm, by rw [hframe], hcnt, hbytes, by rw [hframe], by rw [hframe]⟩

/-- Settles O17: the emptied buffer takes the header at index 0. -/
theorem syncStartsFrame : Obligations.SyncStartsFrame := by
  intro s hv hm
  have hrow : IsRowOf (decodeCtx s) (dispatchWord s.mode 0xAA#8) .sync := by rw [hm]; exact ⟨rfl, rfl, rfl⟩
  have hcap : 0 < s.cfg.maxLen.toNat := Nat.lt_of_lt_of_le (by decide) hv.1
  exact completes_of_isRowOf hv hrow (execSync_next.2 ⟨⟨hm, hcap⟩, rfl⟩)

/-- Settles O18: SKIP answers with an empty record alone. -/
theorem noiseIsSkipped : Obligations.NoiseIsSkipped := by
  intro s b hv hm hh hr
  have hrow : IsRowOf (decodeCtx s) (dispatchWord s.mode b) (.skip b) := by
    rw [hm]; exact ⟨rfl, decide_eq_true ⟨hh, hr⟩, rfl⟩
  exact completes_of_isRowOf hv hrow (execSkip_next.2 ⟨⟨hm, hh, hr⟩, rfl⟩)

/-- Settles O21, one row for each bound: both raise the same rejection. -/
theorem lengthIsRejected : Obligations.LengthIsRejected := by
  intro s b hv hm
  constructor
  · intro hlo
    have hrow : IsRowOf (decodeCtx s) (dispatchWord s.mode b) (.lenbad b) := by
      rw [hm]; exact ⟨rfl, decide_eq_true hlo, rfl⟩
    exact completes_of_isRowOf hv hrow (execLenbad_next.2 ⟨⟨hm, hlo⟩, rfl⟩)
  · intro hhi
    have hrow : IsRowOf (decodeCtx s) (dispatchWord s.mode b) (.lenbadHi b) := by
      rw [hm]; exact ⟨rfl, decide_eq_true hhi, rfl⟩
    exact completes_of_isRowOf hv hrow (execLenbadHi_next.2 ⟨⟨hm, hhi⟩, rfl⟩)

end Sys2Proof.Machine

/-!
PROOFS. The handshake recogniser (42_handshake.md): every request between frames is answered, none inside a frame, and
`negotiated` is written by HSK alone and read by nothing.
-/

namespace Sys2Proof.Machine

/-! ## What a step on a byte can do -/

/-- A step that receives a byte has one of the byte's effects, on the state with the byte taken off RX. -/
theorem step_byte_effect {b : Byte} {s t : State} {r : List RxEvent}
    (h : step { s with rx := .byte b :: r } = .next t) : ByteEffect b { s with rx := r } t := by
  have he : handleEvent (.byte b) { s with rx := r } = .next t :=
    (step_cons (s := { s with rx := .byte b :: r }) rfl).symm.trans h
  obtain ⟨-, ⟨c, hc, -⟩ | ⟨b', hb, ht⟩⟩ := handleEvent_next.1 he
  · cases hc
  · cases hb
    exact executeByte_effect ht

/-- The flag after a byte: set by 0xB1 in SEEK, else as it was (R141, R142). -/
theorem ByteEffect.negotiated_eq {b : Byte} {s t : State} (h : ByteEffect b s t) :
    t.negotiated = if s.mode = .seek ∧ b = 0xB1#8 then true else s.negotiated := by
  cases h with
  | hsk hm hb => exact (if_pos ⟨hm, hb⟩).symm
  | skip _ hb => exact (if_neg fun hc => hb.2 hc.2).symm
  | sync _ hb => exact (if_neg fun hc => absurd (hb.symm.trans hc.2) (by decide)).symm
  | lenok hm | acc hm => exact (if_neg fun hc => Mode.noConfusion (hm.symm.trans hc.1)).symm
  | finish o hm => exact (if_neg fun hc => hm hc.1).symm

/-- ACK and NACK, the replies to a frame attempt (R152), are not the handshake response. -/
theorem reply_ne_handshakeResp (o : PacketOutcome) : reply o ≠ Wire.handshakeResp := by
  have hack : Wire.ack ≠ Wire.handshakeResp := by decide
  have hnack : Wire.nack ≠ Wire.handshakeResp := by decide
  cases o with
  | accepted => exact hack
  | rejectedBadFraming | rejectedLengthMismatch | rejectedCrcMismatch => exact hnack

/-- Inside a frame attempt no byte, whatever it is, draws a handshake response or moves the flag (R142). -/
theorem ByteEffect.no_handshake_in_frame {b : Byte} {s t : State} (h : ByteEffect b s t) (hm : s.mode ≠ .seek) :
    ∃ o, t.outs = s.outs ++ [o] ∧ o.tx ≠ some Wire.handshakeResp ∧ o.hs = false ∧ t.negotiated = s.negotiated := by
  cases h with
  | skip hs | hsk hs | sync hs => exact absurd hs hm
  | lenok | acc => exact ⟨_, rfl, nofun, rfl, rfl⟩
  | finish o => exact ⟨_, rfl, fun e => reply_ne_handshakeResp o (Option.some.inj e), rfl, rfl⟩

/-! ## Requests between frames -/

/-- HSK (R141). -/
theorem handleEvent_hsk {s : State} (hi : s.Inv) (hm : s.mode = .seek) :
    handleEvent (.byte 0xB1#8) s =
      .next (emit { tx := some Wire.handshakeResp, hs := true } (setNegotiated s)) := by
  have hsel : Selects s 0xB1#8 .hsk := ⟨hm, rfl⟩
  rw [handleEvent_of_selects hi hsel]
  exact execHsk_next.2 ⟨hm, rfl⟩

/-! ## The flag changed beforehand -/

/-- `s` with `v` in the flag. -/
abbrev State.withNegotiated (v : Bool) (s : State) : State := { s with negotiated := v }

theorem completion_withNegotiated (b : Byte) (s : State) (v : Bool) :
    completion b (s.withNegotiated v) = completion b s := by
  unfold completion append byteAt memRead
  by_cases h4 : s.len.toNat < 4
  · simp [h4]
  · by_cases hc : s.cnt.toNat < s.cfg.maxLen.toNat <;> simp [h4, hc]

/-- The flag plays no part in what a byte selects. -/
theorem decodeCtx_withNegotiated (s : State) (v : Bool) : decodeCtx (s.withNegotiated v) = decodeCtx s := by
  simp only [decodeCtx, crcGood, completion_withNegotiated, position]

/-- HSK overwrites the flag. -/
theorem execHsk_withNegotiated (s : State) (v : Bool) : execHsk (s.withNegotiated v) = execHsk s := rfl

/-- Every other byte-driven operation carries the flag along. -/
theorem exec_withNegotiated_of_dispatch {i : Instr} {w : BitVec 10} (he : encode i = .dispatch w) (hne : i ≠ .hsk)
    {s t : State} (h : exec i s = .next t) (v : Bool) : exec i (s.withNegotiated v) = .next (t.withNegotiated v) := by
  have hread : ∀ {b f}, completion b s = .ok f → completion b (s.withNegotiated v) = .ok f :=
    (completion_withNegotiated _ s v).trans
  cases i <;> simp only [encode, reduceCtorEq] at he
  case hsk => exact absurd rfl hne
  case sync => obtain ⟨hg, rfl⟩ := execSync_next.1 h; exact execSync_next.2 ⟨hg, rfl⟩
  case skip => obtain ⟨hg, rfl⟩ := execSkip_next.1 h; exact execSkip_next.2 ⟨hg, rfl⟩
  case lenbad => obtain ⟨hg, rfl⟩ := execLenbad_next.1 h; exact execLenbad_next.2 ⟨hg, rfl⟩
  case lenbadHi => obtain ⟨hg, rfl⟩ := execLenbadHi_next.1 h; exact execLenbadHi_next.2 ⟨hg, rfl⟩
  case lenok => obtain ⟨hg, rfl⟩ := execLenok_next.1 h; exact execLenok_next.2 ⟨hg, rfl⟩
  case acc => obtain ⟨hg, rfl⟩ := execAcc_next.1 h; exact execAcc_next.2 ⟨hg, rfl⟩
  case finBadend =>
    obtain ⟨hg, ⟨f, hf, hend⟩, rfl⟩ := execFinBadend_next.1 h
    exact execFinBadend_next.2 ⟨hg, ⟨f, hread hf, hend⟩, rfl⟩
  case finBadcrc =>
    obtain ⟨hg, ⟨f, hf, hcrc⟩, rfl⟩ := execFinBadcrc_next.1 h
    exact execFinBadcrc_next.2 ⟨hg, ⟨f, hread hf, hcrc⟩, rfl⟩
  case finOk =>
    obtain ⟨hg, f, hf, hcrc, rfl⟩ := execFinOk_next.1 h
    exact execFinOk_next.2 ⟨hg, f, hread hf, hcrc, rfl⟩

/-- So do the codec's operations (R94). -/
theorem exec_withNegotiated_of_internal {i : Instr} (he : encode i = .internal) {s t : State} (h : exec i s = .next t)
    (v : Bool) : exec i (s.withNegotiated v) = .next (t.withNegotiated v) := by
  cases i <;> cases he
  case crcInit | crcBit => cases h; rfl
  case crcByte d => cases (exec_crcByte d s).symm.trans h; exact exec_crcByte d _
  case crcCompute bs =>
    cases h
    rw [crcRun_eq]
    exact congrArg Host.Outcome.next (crcRun_eq bs (s.withNegotiated v))
  case crcCheck p c =>
    cases h
    show Host.Outcome.next (setCrcOk (decide ((crcRun p (s.withNegotiated v)).crc = c))
      (crcRun p (s.withNegotiated v))) = .next _
    rw [crcRun_eq, crcRun_eq]
    rfl

/-- `x` answers `t` but for the flag. -/
abbrev AnswersButFlag (x : Result) (t : State) : Prop :=
  ∃ t', x = .next t' ∧ { t' with negotiated := t.negotiated } = t

theorem exec_flag_independent_of_dispatch {i : Instr} {w : BitVec 10} (he : encode i = .dispatch w) {s t : State}
    (h : exec i s = .next t) (v : Bool) : AnswersButFlag (exec i (s.withNegotiated v)) t := by
  by_cases hi : i = .hsk
  · subst hi
    exact ⟨t, (execHsk_withNegotiated s v).trans h, rfl⟩
  · exact ⟨_, exec_withNegotiated_of_dispatch he hi h v, rfl⟩

/-- A received byte, its decoding included: the operation selected is the same. -/
theorem executeByte_flag_independent {b : Byte} {s t : State} (h : executeByte b s = .next t) (v : Bool) :
    AnswersButFlag (executeByte b (s.withNegotiated v)) t := by
  obtain ⟨i, hd, hi⟩ := executeByte_next.1 h
  obtain ⟨he, -⟩ := isRowOf_of_decode hd
  obtain ⟨t', ht', hflag⟩ := exec_flag_independent_of_dispatch he hi v
  exact ⟨t', executeByte_next.2 ⟨i, by rw [decodeCtx_withNegotiated]; exact hd, ht'⟩, hflag⟩

/-- Every instruction. -/
theorem exec_flag_independent {i : Instr} {s t : State} (h : exec i s = .next t) (v : Bool) :
    AnswersButFlag (exec i (s.withNegotiated v)) t := by
  cases i with
  | handshakeResp | ack | nack => cases h; exact ⟨_, rfl, rfl⟩
  | crcInit | crcBit | crcByte | crcCompute | crcCheck => exact ⟨_, exec_withNegotiated_of_internal rfl h v, rfl⟩
  | header | endMarker | handshakeReq =>
    have hb := executeByte_flag_independent ((receive_eq_executeByte _ s).symm.trans h) v
    rwa [← receive_eq_executeByte] at hb
  | sync | hsk | skip | lenbad | lenbadHi | lenok | acc | finBadend | finBadcrc | finOk =>
    exact exec_flag_independent_of_dispatch rfl h v

/-- One event: RESET overwrites the flag. -/
theorem handleEvent_flag_independent {e : RxEvent} {s t : State} (h : handleEvent e s = .next t) (v : Bool) :
    AnswersButFlag (handleEvent e (s.withNegotiated v)) t := by
  obtain ⟨hv, ⟨c, rfl, rfl⟩ | ⟨b, rfl, hb⟩⟩ := handleEvent_next.1 h
  · exact ⟨_, handleEvent_reset (s := s.withNegotiated v) hv c, rfl⟩
  · rw [handleEvent_byte (s := s.withNegotiated v) hv]
    exact executeByte_flag_independent hb v

theorem step_flag_independent {s t : State} (h : step s = .next t) (v : Bool) :
    AnswersButFlag (step (s.withNegotiated v)) t := by
  obtain ⟨hv, hrx, rfl⟩ | ⟨e, rest, hrx, he⟩ := step_next.1 h
  · exact ⟨_, step_nil (s := t.withNegotiated v) hrx hv, rfl⟩
  · rw [step_cons (s := s.withNegotiated v) hrx]
    exact handleEvent_flag_independent (s := { s with rx := rest }) he v

/-! ## Who writes the flag -/

/-- An operation that carries any flag along carries the one that stands there. -/
theorem exec_keeps_negotiated_of_dispatch {i : Instr} {w : BitVec 10} (he : encode i = .dispatch w) (hne : i ≠ .hsk)
    {s t : State} (h : exec i s = .next t) : t.negotiated = s.negotiated := by
  have hcarried : exec i s = .next (t.withNegotiated s.negotiated) :=
    exec_withNegotiated_of_dispatch he hne h s.negotiated
  have ht : t.withNegotiated s.negotiated = t := next_eq_next.1 (h.symm.trans hcarried)
  rw [← ht]

/-- Every instruction but HSK, and the constant that is HSK in SEEK (log 9). -/
theorem exec_keeps_negotiated {i : Instr} {s t : State} (h : exec i s = .next t) (hne : i ≠ .hsk)
    (hreq : i ≠ .handshakeReq) : t.negotiated = s.negotiated := by
  have hreceived : ∀ b, b ≠ 0xB1#8 → receive b s = .next t → t.negotiated = s.negotiated := fun b hb hr =>
    (executeByte_effect ((receive_eq_executeByte b s).symm.trans hr)).negotiated_eq.trans (if_neg fun hc => hb hc.2)
  cases i with
  | handshakeReq => exact absurd rfl hreq
  | header | endMarker => exact hreceived _ (by decide) h
  | handshakeResp | ack | nack => cases h; rfl
  | crcInit | crcBit | crcByte | crcCompute | crcCheck =>
    obtain ⟨-, -, rfl⟩ := exec_next_of_internal rfl h
    rfl
  | sync | hsk | skip | lenbad | lenbadHi | lenok | acc | finBadend | finBadcrc | finOk =>
    exact exec_keeps_negotiated_of_dispatch rfl hne h

/-! ## The obligations -/

/-- Settles O26: the step answers, and outside SEEK no effect of a byte is HSK. -/
theorem handshakeOnlyBetweenFrames : Obligations.HandshakeOnlyBetweenFrames := by
  intro s r hi hm
  obtain ⟨t, ht⟩ := exists_handleEvent_next hi (.byte 0xB1#8)
  have hstep := step_byte_next ht r
  obtain ⟨o, ho⟩ := (step_byte_effect hstep).no_handshake_in_frame hm
  exact ⟨_, o, hstep, ho⟩

/-- Settles O31: each operation but HSK carries the flag along, HSK and RESET overwrite it, and the decoder does not
see it. -/
theorem negotiatedGatesNothing : Obligations.NegotiatedGatesNothing :=
  ⟨fun _ _ _ v h => exec_flag_independent h v, fun _ _ v h => step_flag_independent h v,
    fun _ _ _ => exec_keeps_negotiated, fun _ _ _ _ h => (step_byte_effect h).negotiated_eq⟩

/-- Settles O54, by induction on the number of requests: each leaves the parser idle, whatever the flag was. -/
theorem everyHandshakeIsAnswered : Obligations.EveryHandshakeIsAnswered := by
  intro s n hs hn
  induction n, hn using Nat.le_induction generalizing s with
  | base => exact run_cons_next (handleEvent_hsk hs.1 hs.2)
  | succ n _ ih =>
    rw [List.replicate_succ, received_cons, run_cons_next (handleEvent_hsk hs.1 hs.2), ih (emit _ (setNegotiated s)) hs]
    simp only [emit_outs, setNegotiated_outs, List.append_assoc, List.singleton_append, List.replicate_succ]
    rfl

/-- Settles O19: HSK looks at the mode alone. -/
theorem handshakeIsAnswered : Obligations.HandshakeIsAnswered := by
  intro s hv hm
  have hrow : IsRowOf (decodeCtx s) (dispatchWord s.mode 0xB1#8) .hsk := by rw [hm]; exact ⟨rfl, rfl, rfl⟩
  exact completes_of_isRowOf hv hrow (execHsk_next.2 ⟨hm, rfl⟩)

end Sys2Proof.Machine

/-!
PROOFS. The dispatch (43_dispatch.md): the step is the reference step, the reply follows the outcome, and the replies of
a run are counted by its records.
-/

namespace Sys2Proof.Machine

/-! ## The record of a received byte -/

/-- The records a byte `b` received in state `s` can add (R151): a reply stands in them for a handshake request answered
or for an outcome, and for nothing else (R153). -/
inductive ByteRecord (b : Byte) (s : State) : Out → Prop
  | silent (h : ¬ (s.mode = .seek ∧ b = 0xB1#8)) : ByteRecord b s Out.empty
  | handshake (h : s.mode = .seek ∧ b = 0xB1#8) : ByteRecord b s { tx := some 0x55#8, hs := true }
  | terminal (p : PacketOutcome) : ByteRecord b s { tx := some (reply p), outcome := some p }

theorem ByteEffect.exists_record {b : Byte} {s t : State} (h : ByteEffect b s t) :
    ∃ o, t.outs = s.outs ++ [o] ∧ ByteRecord b s o := by
  cases h with
  | skip _ hb => exact ⟨_, rfl, .silent fun hc => hb.2 hc.2⟩
  | hsk hm hb => exact ⟨_, rfl, .handshake ⟨hm, hb⟩⟩
  | sync _ hb => exact ⟨_, rfl, .silent fun hc => absurd (hb.symm.trans hc.2) (by decide)⟩
  | lenok hm | acc hm => exact ⟨_, rfl, .silent fun hc => Mode.noConfusion (hm.symm.trans hc.1)⟩
  | finish p => exact ⟨_, rfl, .terminal p⟩

theorem ByteRecord.tx_of_outcome {b : Byte} {s : State} {o : Out} (h : ByteRecord b s o) {p : PacketOutcome}
    (hp : o.outcome = some p) : o.tx = some (reply p) := by
  cases h with
  | silent | handshake => cases hp
  | terminal => cases hp; rfl

theorem ByteRecord.tx_of_no_outcome {b : Byte} {s : State} {o : Out} (h : ByteRecord b s o) (hn : o.outcome = none) :
    o.tx = if s.mode = .seek ∧ b = 0xB1#8 then some 0x55#8 else none := by
  cases h with
  | silent hc => exact (if_neg hc).symm
  | handshake hc => exact (if_pos hc).symm
  | terminal => cases hn

/-- A step that takes no byte off RX adds no record: for RESET by R201, with nothing on RX because it changes nothing. -/
theorem step_outs_of_no_byte {s t : State} (hrx : ∀ b r, s.rx ≠ .byte b :: r) (h : step s = .next t) :
    t.outs = s.outs := by
  obtain ⟨-, -, rfl⟩ | ⟨e, rest, he, ht⟩ := step_next.1 h
  · rfl
  · obtain ⟨-, ⟨c, -, rfl⟩ | ⟨b, rfl, -⟩⟩ := handleEvent_next.1 ht
    · exact resetEvent_outs _
    · exact absurd he (hrx b rest)

/-! ## The records of a run -/

/-- The replies are as many as the outcomes and the handshake marks together (R154). -/
def RepliesMatchEvents (os : List Out) : Prop :=
  (txOf os).length = (outcomesOf os).length + (os.filter Out.hs).length

theorem ByteRecord.repliesMatchEvents {b : Byte} {s : State} {o : Out} (h : ByteRecord b s o) :
    RepliesMatchEvents [o] := by
  cases h with
  | silent | handshake | terminal => rfl

theorem RepliesMatchEvents.append {os os' : List Out} (h : RepliesMatchEvents os) (h' : RepliesMatchEvents os') :
    RepliesMatchEvents (os ++ os') := by
  unfold RepliesMatchEvents outcomesOf at *
  rw [txOf_append, List.filterMap_append, List.filter_append]
  simp only [List.length_append]
  omega

/-- From a state with the invariants a byte is handled: they are kept, and one record is added. -/
theorem exists_handleEvent_record {s : State} (hi : s.Inv) (b : Byte) :
    ∃ t o, handleEvent (.byte b) s = .next t ∧ t.Inv ∧ t.outs = s.outs ++ [o] ∧ ByteRecord b s o := by
  obtain ⟨t, ht⟩ := exists_handleEvent_next hi (.byte b)
  have heff : ByteEffect b s t := executeByte_effect ((handleEvent_byte hi.1 b).symm.trans ht)
  obtain ⟨o, houts, ho⟩ := heff.exists_record
  exact ⟨t, o, ht, heff.keeps_inv hi, houts, ho⟩

/-- From a state with the invariants a run over bytes answers, with one record a byte. -/
theorem run_received_repliesMatchEvents (bs : List Byte) {s : State} (hi : s.Inv) :
    ∃ t os, run (received bs) s = .next t ∧ t.outs = s.outs ++ os ∧ os.length = bs.length ∧
      RepliesMatchEvents os := by
  induction bs generalizing s with
  | nil => exact ⟨s, [], rfl, (List.append_nil _).symm, rfl, rfl⟩
  | cons b bs ih =>
    obtain ⟨u, o, hu, hui, houts, ho⟩ := exists_handleEvent_record hi b
    obtain ⟨t, os, ht, houts', hlen, hos⟩ := ih hui
    refine ⟨t, [o] ++ os, (run_cons_next hu).trans ht, ?_, congrArg (· + 1) hlen, ho.repliesMatchEvents.append hos⟩
    rw [houts', houts, List.append_assoc]

/-! ## The obligations -/

/-- Settles O9: the step takes the byte off RX, and the operation map followed by the operation is R163's case analysis. -/
theorem stepIsReferenceStep : Obligations.StepIsReferenceStep := fun s b r hv =>
  calc step { s with rx := .byte b :: r }
    _ = handleEvent (.byte b) { s with rx := r } := step_cons rfl
    _ = executeByte b { s with rx := r } := handleEvent_byte (s := { s with rx := r }) hv b
    _ = receive b { s with rx := r } := (receive_eq_executeByte b _).symm

/-- Settles O30, from the records a byte can add; a step without a byte adds none. -/
theorem exactlyOneReplyPerOutcome : Obligations.ExactlyOneReplyPerOutcome := by
  constructor
  · intro s t b r h
    obtain ⟨o, houts, ho⟩ := (step_byte_effect h).exists_record
    exact ⟨o, houts, fun _ => ho.tx_of_outcome, ho.tx_of_no_outcome⟩
  · intro s t hrx h
    refine step_outs_of_no_byte (fun b r hb => ?_) h
    obtain hnil | ⟨c, r', hreset⟩ := hrx
    · cases hnil.symm.trans hb
    · cases hreset.symm.trans hb

/-- Settles O57, by induction on the bytes; a record holds at most one reply. -/
theorem repliesAreCounted : Obligations.RepliesAreCounted := by
  intro s bs hi
  obtain ⟨t, os, ht, houts, hlen, hos⟩ := run_received_repliesMatchEvents bs hi
  exact ⟨t, os, ht, houts, hlen, hos, hlen ▸ List.length_filterMap_le Out.tx os⟩

/-- Settles O7: it is what the model's step on an empty RX is (log 2). -/
theorem stepWithoutEventChangesNothing : Obligations.StepWithoutEventChangesNothing := fun _ hv hrx =>
  step_nil hrx hv

/-- Settles O29, outcome by outcome. -/
theorem replyMapping : Obligations.ReplyMapping := ⟨fun _ => rfl, rfl, rfl, rfl⟩

end Sys2Proof.Machine

/-!
PROOFS. The exceptions (60_exceptions.md): each outcome is reported for its cause alone, and a rejection is taken by
`raise`.
-/

namespace Sys2Proof.Machine

/-! ## Outcomes and their causes -/

/-- The outcome an operation reports when it is executed in `s`, if it is one that ends a frame attempt. -/
def reportedOutcome (s : State) : Instr → Option PacketOutcome
  | .lenbad _ | .lenbadHi _ => some .rejectedLengthMismatch
  | .finBadend _ => some .rejectedBadFraming
  | .finBadcrc => some .rejectedCrcMismatch
  | .finOk => some (.accepted s.framePayload)
  | _ => none

/-- The cause of each outcome in the table of R171, for the byte `b` received in `s`; R178 orders the checks. -/
def HasCause (s : State) (b : Byte) : PacketOutcome → Prop
  | .rejectedLengthMismatch => s.mode = .rlen ∧ (b.toNat < 4 ∨ s.cfg.maxLen.toNat < b.toNat)
  | .rejectedBadFraming => s.mode = .accum ∧ s.cnt.toNat + 1 = s.len.toNat ∧ b ≠ 0xBB#8
  | .rejectedCrcMismatch =>
    s.mode = .accum ∧ s.cnt.toNat + 1 = s.len.toNat ∧ b = 0xBB#8 ∧ s.frameCrc ≠ some (crc8 s.framePayload)
  | .accepted p =>
    s.mode = .accum ∧ s.cnt.toNat + 1 = s.len.toNat ∧ b = 0xBB#8 ∧ s.frameCrc = some (crc8 s.framePayload) ∧
      p = s.framePayload

/-- The rows of the operation map exclude each other (R68). -/
theorem selects_unique {s : State} (hi : s.Inv) {b : Byte} {i j : Instr} (h : Selects s b i) (h' : Selects s b j) :
    i = j :=
  Except.ok.inj (((selects_iff_decode hi).1 h).symm.trans ((selects_iff_decode hi).1 h'))

/-- The cause of an outcome is the condition of an operation that reports it. -/
theorem exists_selects_of_hasCause {s : State} {b : Byte} {p : PacketOutcome} (h : HasCause s b p) :
    ∃ i, Selects s b i ∧ reportedOutcome s i = some p := by
  cases p with
  | rejectedLengthMismatch =>
    obtain ⟨hm, hlo | hhi⟩ := h
    · exact ⟨.lenbad b, ⟨rfl, hm, hlo⟩, rfl⟩
    · exact ⟨.lenbadHi b, ⟨rfl, hm, hhi⟩, rfl⟩
  | rejectedBadFraming => exact ⟨.finBadend b, ⟨rfl, h⟩, rfl⟩
  | rejectedCrcMismatch => exact ⟨.finBadcrc, h, rfl⟩
  | accepted p =>
    obtain ⟨hm, hl, hb, hc, rfl⟩ := h
    exact ⟨.finOk, ⟨hm, hl, hb, hc⟩, rfl⟩

/-- An operation selected that reports an outcome has its cause. -/
theorem hasCause_of_selects {s : State} {b : Byte} {i : Instr} {p : PacketOutcome} (h : Selects s b i)
    (hp : reportedOutcome s i = some p) : HasCause s b p := by
  cases i <;> cases hp
  case lenbad => obtain ⟨-, hm, hlo⟩ := h; exact ⟨hm, .inl hlo⟩
  case lenbadHi => obtain ⟨-, hm, hhi⟩ := h; exact ⟨hm, .inr hhi⟩
  case finBadend => exact h.2
  case finBadcrc => exact h
  case finOk => obtain ⟨hm, hl, hb, hc⟩ := h; exact ⟨hm, hl, hb, hc, rfl⟩

/-- The operation selected reports exactly the outcome whose cause is present, since no other row is selected. -/
theorem reportedOutcome_eq_some {s : State} (hi : s.Inv) {b : Byte} {i : Instr} (h : Selects s b i)
    {p : PacketOutcome} : reportedOutcome s i = some p ↔ HasCause s b p := by
  refine ⟨hasCause_of_selects h, fun hp => ?_⟩
  obtain ⟨j, hj, hjp⟩ := exists_selects_of_hasCause hp
  rw [selects_unique hi h hj, hjp]

/-- The operation selected adds one record, with the outcome it reports (R151). -/
theorem exec_outs_of_selects {s t : State} (hi : s.Inv) {b : Byte} {i : Instr} (hsel : Selects s b i)
    (h : exec i s = .next t) : ∃ o, t.outs = s.outs ++ [o] ∧ o.outcome = reportedOutcome s i := by
  cases i with
  | sync => obtain ⟨-, rfl⟩ := execSync_next.1 h; exact ⟨_, rfl, rfl⟩
  | hsk => obtain ⟨-, rfl⟩ := execHsk_next.1 h; exact ⟨_, rfl, rfl⟩
  | skip => obtain ⟨-, rfl⟩ := execSkip_next.1 h; exact ⟨_, rfl, rfl⟩
  | lenbad => obtain ⟨-, rfl⟩ := execLenbad_next.1 h; exact ⟨_, rfl, rfl⟩
  | lenbadHi => obtain ⟨-, rfl⟩ := execLenbadHi_next.1 h; exact ⟨_, rfl, rfl⟩
  | lenok => obtain ⟨-, rfl⟩ := execLenok_next.1 h; exact ⟨_, rfl, rfl⟩
  | acc => obtain ⟨-, rfl⟩ := execAcc_next.1 h; exact ⟨_, rfl, rfl⟩
  | finBadend => obtain ⟨-, -, rfl⟩ := execFinBadend_next.1 h; exact ⟨_, rfl, rfl⟩
  | finBadcrc => obtain ⟨-, -, rfl⟩ := execFinBadcrc_next.1 h; exact ⟨_, rfl, rfl⟩
  | finOk =>
    obtain ⟨hm, hl, -, hc⟩ := hsel
    obtain ⟨hexec, -⟩ := goodFrameIsAccepted s hi hm hl hc
    cases hexec.symm.trans h
    exact ⟨_, rfl, rfl⟩
  | crcInit | crcBit | crcByte | crcCompute | crcCheck | header | endMarker | handshakeReq | handshakeResp | ack
  | nack => exact hsel.elim

/-! ## The obligations -/

/-- Settles O27: the byte selects one operation, which answers and reports the outcome whose cause is present. -/
theorem outcomesHaveTheirCauses : Obligations.OutcomesHaveTheirCauses := by
  intro s b r hi
  obtain ⟨i, hsel⟩ := exists_selects hi b
  obtain ⟨t, ht⟩ := exec_answers_of_selects hi hsel
  obtain ⟨o, houts, ho⟩ := exec_outs_of_selects hi hsel ht
  have hcause : ∀ p, o.outcome = some p ↔ HasCause s b p := fun _ => by rw [ho, reportedOutcome_eq_some hi hsel]
  exact ⟨_, o, step_byte_next ((handleEvent_of_selects hi hsel).trans ht) r, houts, hcause .rejectedLengthMismatch,
    hcause .rejectedBadFraming, hcause .rejectedCrcMismatch, fun p => hcause (.accepted p)⟩

/-- Settles O28: what `raise` writes, and the one state each of the four rejecting operations can answer. -/
theorem rejectionReportsAndResets : Obligations.RejectionReportsAndResets := by
  refine ⟨fun c s => raise_eq c s, fun s t b h => ?_, fun s t b h => ?_, fun s t b h => ?_, fun s t h => ?_⟩
  · exact (execLenbad_next.1 h).2
  · exact (execLenbadHi_next.1 h).2
  · obtain ⟨-, -, ht⟩ := execFinBadend_next.1 h; exact ht
  · obtain ⟨-, -, ht⟩ := execFinBadcrc_next.1 h; exact ht

end Sys2Proof.Machine

/-!
PROOFS. Reset and hazards (70_reset_and_hazards.md): RESET enters S0, and a frame attempt ends within MAX_LEN bytes.
-/

namespace Sys2Proof.Machine

/-! ## The end of a frame attempt -/

/-- A byte handled has one of the effects a byte can have. -/
theorem handleEvent_byte_effect {s t : State} {b : Byte} (hv : s.cfg.Valid)
    (h : handleEvent (.byte b) s = .next t) : ByteEffect b s t :=
  executeByte_effect ((handleEvent_byte hv b).symm.trans h)

/-- A byte in a frame attempt that is neither a valid length nor before the frame's last ends the attempt with an
outcome and its reply: no other effect is left (R115, R117). -/
theorem handleEvent_finish {s : State} (hi : s.Inv) (hm : s.mode ≠ .seek) {b : Byte}
    (hlen : s.mode = .rlen → ¬ s.cfg.LenValid b) (hlast : s.mode = .accum → ¬ s.cnt.toNat + 1 < s.len.toNat) :
    ∃ p, handleEvent (.byte b) s = .next (s.idleWith { tx := some (reply p), outcome := some p }) := by
  obtain ⟨t, ht⟩ := exists_handleEvent_next hi (.byte b)
  cases handleEvent_byte_effect hi.1 ht with
  | finish p => exact ⟨p, ht⟩
  | skip h | hsk h | sync h => exact absurd h hm
  | lenok h hb => exact absurd hb (hlen h)
  | acc h hp => exact absurd hp (hlast h)

/-- Some first byte of `bs` leaves the parser idle, and of the records up to it only its own is not empty, with a reply
and an outcome. -/
def EndsWithin (bs : List Byte) (s : State) : Prop :=
  ∃ k t o, k < bs.length ∧ run (received (bs.take (k + 1))) s = .next t ∧ t.Idle ∧
    t.outs = s.outs ++ List.replicate k Out.empty ++ [o] ∧ o.tx ≠ none ∧ o.outcome ≠ none

/-- The first byte may end the attempt. -/
theorem EndsWithin.of_finish {s : State} {b : Byte} {p : PacketOutcome} (hi : s.Inv)
    (h : handleEvent (.byte b) s = .next (s.idleWith { tx := some (reply p), outcome := some p })) (bs : List Byte) :
    EndsWithin (b :: bs) s :=
  ⟨0, _, { tx := some (reply p), outcome := some p }, Nat.zero_lt_succ _, run_cons_next h,
    ⟨inv_idleWith hi.1 _, rfl⟩, by simp [State.idleWith], Option.some_ne_none _, Option.some_ne_none _⟩

/-- Or the first byte is silent and a later one ends the attempt. -/
theorem EndsWithin.cons {s u : State} {b : Byte} {bs : List Byte} (hb : handleEvent (.byte b) s = .next u)
    (hsilent : u.outs = s.outs ++ [Out.empty]) (h : EndsWithin bs u) : EndsWithin (b :: bs) s := by
  obtain ⟨k, t, o, hk, hrun, hidle, houts, htx, hout⟩ := h
  refine ⟨k + 1, t, o, Nat.succ_lt_succ hk, (run_cons_next hb).trans hrun, hidle, ?_, htx, hout⟩
  rw [houts, hsilent, List.replicate_succ, List.append_assoc s.outs]
  rfl

/-- In ACCUM the attempt ends within the bytes still missing to the declared length, whatever they are (R116, R117). -/
theorem endsWithin_of_accum (bs : List Byte) {s : State} (hi : s.Inv) (hm : s.mode = .accum)
    (hl : s.len.toNat ≤ s.cnt.toNat + bs.length) : EndsWithin bs s := by
  induction bs generalizing s with
  | nil =>
    obtain ⟨-, -, -, hcnt, -⟩ := hi.2.2.2 hm
    exact absurd (hcnt.trans hl) (Nat.not_succ_le_self _)
  | cons b bs ih =>
    rw [List.length_cons] at hl
    by_cases hp : s.cnt.toNat + 1 < s.len.toNat
    · obtain ⟨u, hu, hui, hcnt, -, hframe⟩ := handleEvent_acc hi hm hp b
      have hum : u.mode = .accum := by rw [hframe]; exact hm
      have hul : u.len = s.len := by rw [hframe]
      have hsilent : u.outs = s.outs ++ [Out.empty] := by rw [hframe]; rfl
      exact .cons hu hsilent (ih hui hum (by rw [hul, hcnt, List.length_singleton]; omega))
    · obtain ⟨p, hfin⟩ := handleEvent_finish (b := b) hi (by simp [hm]) (by simp [hm]) fun _ => hp
      exact .of_finish hi hfin bs

/-- In RLEN it ends within MAX_LEN - 1 bytes: at once on an invalid length, else a valid one bounds it (R114, R115). -/
theorem endsWithin_of_rlen {s : State} {bs : List Byte} (hi : s.Inv) (hm : s.mode = .rlen)
    (hl : bs.length + 1 = s.cfg.maxLen.toNat) : EndsWithin bs s := by
  have hv : 4 ≤ s.cfg.maxLen.toNat := hi.1.1
  cases bs with
  | nil => rw [List.length_nil] at hl; omega
  | cons b bs =>
    rw [List.length_cons] at hl
    by_cases hb : s.cfg.LenValid b
    · have hmax : b.toNat ≤ s.cfg.maxLen.toNat := hb.2
      have hshort : b.toNat ≤ 2 + bs.length := by omega
      have hstart := handleEvent_lenok hi hm hb
      have hui := (handleEvent_byte_effect hi.1 hstart).keeps_inv hi
      exact .cons hstart rfl (endsWithin_of_accum bs hui rfl hshort)
    · obtain ⟨p, hfin⟩ := handleEvent_finish hi (by simp [hm]) (fun _ => hb) (by simp [hm])
      exact .of_finish hi hfin bs

/-! ## The obligations -/

/-- Settles O56: the attempt ends within the bytes given, which are one fewer than MAX_LEN. -/
theorem frameAttemptIsBounded : Obligations.FrameAttemptIsBounded := by
  intro s bs hi hm hl
  obtain ⟨k, t, o, hk, hrun, hidle, houts, htx, hout⟩ := endsWithin_of_rlen hi hm hl
  exact ⟨k + 1, t, o, Nat.le_add_left 1 k, by omega, hrun, hidle, houts, htx, hout⟩

/-- Settles O11: the step takes RESET off RX, and RESET wins over a byte that coincides with it (R201). -/
theorem resetEventEntersS0 : Obligations.ResetEventEntersS0 := fun s c r hv =>
  calc step { s with rx := .reset c :: r }
    _ = handleEvent (.reset c) { s with rx := r } := step_cons rfl
    _ = .next (resetEvent { s with rx := r }) := handleEvent_reset (s := { s with rx := r }) hv c
    _ = .next _ := congrArg _ (resetEvent_eq { s with rx := r })

end Sys2Proof.Machine
